-- ==== Sys2Proof/Word.lean ====
section
/-! DEFINITION. The word types of the machine (10_state.md R10, R13, R15, R17; 20_memory.md R31).
Bit 0 is the least significant bit of any value and all values are unsigned (00_scope.md R6). The
slice `v[hi:lo]` of R6 is `v.extractLsb' lo (hi - lo + 1)`; its `zext` is `BitVec.setWidth`, and its
`sext`, which no rule uses, would be `BitVec.signExtend`. -/

namespace Sys2Proof

/-- A byte of program text (R31). -/
abbrev Byte := BitVec 8

/-- The contents of a general-purpose register (R10). -/
abbrev GprWord := BitVec 64

/-- The contents of a whole vector register, `MAXVL = 512` bits (R4, R13). -/
abbrev ZmmWord := BitVec 512

/-- The contents of an opmask register, `KW = 64` bits (R5, R15). -/
abbrev KWord := BitVec 64

/-- A program address. In `Mode32` only the low 32 bits are used (R17; log 7). -/
abbrev Addr := BitVec 64

end Sys2Proof
end

