-- ==== Sys2Proof/Config.lean ====
section
/-! DEFINITION. The parameters the spec calls `cfg` (00_scope.md R2 to R5, 10_state.md R18, R20, R21).
They are OPEN: a claim quantifies over them. They are held as plain data in the machine's state, and
no step changes them (log 1). -/

namespace Sys2Proof

/-- The execution mode `cfg.MODE` (R3). Real-address mode, virtual-8086 mode and 16-bit code
segments are not values of it (log 21). -/
inductive Mode where
  /-- 64-bit mode. -/
  | mode64
  /-- 32-bit protected mode, or compatibility mode with a 32-bit code segment. -/
  | mode32
  deriving DecidableEq, Repr

/-- `cfg.NGPR`: how many general-purpose registers an instruction can name (R5, R10). -/
def Mode.ngpr : Mode → Nat
  | .mode64 => 16
  | .mode32 => 8

/-- `cfg.NVEC`: how many vector registers an instruction can name (R5, R13). -/
def Mode.nvec : Mode → Nat
  | .mode64 => 32
  | .mode32 => 8

/-- The width of `pc` and of the instruction address space, in bits (R17, R31). -/
def Mode.pcBits : Mode → Nat
  | .mode64 => 64
  | .mode32 => 32

/-- The three CPUID feature flags of the family (R2, R21). -/
inductive Feature where
  | avx512f
  | avx512bw
  | avx512vl
  deriving DecidableEq, Repr

/-- The parameters of a run. `cfg.ENABLED` is computed from the three enabling fields by
`Machine.avx512Enabled`, as R20 defines it (log 17). `cfg.CODE` is the state's memory. -/
structure Config where
  /-- `cfg.MODE` (R3). -/
  mode : Mode
  /-- CPUID flag AVX512F (R2; reported in EBX bit 16, R21). -/
  avx512f : Bool
  /-- CPUID flag AVX512BW (R2; reported in EBX bit 30, R21). -/
  avx512bw : Bool
  /-- CPUID flag AVX512VL (R2; reported in EBX bit 31, R21). -/
  avx512vl : Bool
  /-- CR4.OSXSAVE, bit 18 of CR4 (R20). -/
  osxsave : Bool
  /-- XCR0[7:5], the opmask, ZMM_Hi256 and Hi16_ZMM state enables (R20). -/
  xcr0Avx512 : BitVec 3
  /-- XCR0[2:1], the AVX and SSE state enables (R20). -/
  xcr0AvxSse : BitVec 2
  /-- CR0.TS, bit 3 of CR0, the spec's `cfg.TS` (R20). -/
  ts : Bool
  /-- `cfg.END`, the address at which a run ends (R5, R112). -/
  endPc : Addr
  deriving DecidableEq, Repr

end Sys2Proof
end

