-- ==== Sys2Proof/Syntax.lean ====
section
/-! DEFINITION. The twelve instructions of the opcode table (30_encoding.md R44,
40_vpbroadcast_gpr.md R70 to R81), one constructor per row. -/

namespace Sys2Proof

/-- The element width of a mnemonic: B, W, D, Q. -/
inductive ElemWidth where
  | byte
  | word
  | dword
  | qword
  deriving DecidableEq, Repr

/-- The element width in bits, `ew` of R58. -/
def ElemWidth.bits : ElemWidth → Nat
  | .byte => 8
  | .word => 16
  | .dword => 32
  | .qword => 64

/-- The vector length, named by the register class of the destination (R50, R56). -/
inductive VecLen where
  | xmm
  | ymm
  | zmm
  deriving DecidableEq, Repr

/-- The vector length in bits, `VL` of R50. -/
def VecLen.bits : VecLen → Nat
  | .xmm => 128
  | .ymm => 256
  | .zmm => 512

/-- The operand fields every row has (R44): the destination and source register numbers after
un-inverting (R46, R47), the writemask select (R48), the masking kind (R49), and the reserved field
`EVEX.vvvv` as stored, which names no operand (R53; log 11). -/
structure EvexOperands where
  /-- P1[6:3] as stored; any value but 1111b raises #UD (R53). -/
  vvvv : BitVec 4
  /-- The destination is `zmm[dst]` (R46). -/
  dst : BitVec 5
  /-- The source is `gpr[src]` (R47). -/
  src : BitVec 4
  /-- 0 means no writemask, `n` selects `k[n]` (R48). -/
  aaa : BitVec 3
  /-- false: merging-masking; true: zeroing-masking (R49). -/
  z : Bool
  deriving DecidableEq, Repr

/-- The instructions, in the order of the opcode table. -/
inductive Instr where
  /-- VPBROADCASTB xmm1 {k1}{z}, reg (R70). -/
  | vpbroadcastbXmm (o : EvexOperands)
  /-- VPBROADCASTB ymm1 {k1}{z}, reg (R71). -/
  | vpbroadcastbYmm (o : EvexOperands)
  /-- VPBROADCASTB zmm1 {k1}{z}, reg (R72). -/
  | vpbroadcastbZmm (o : EvexOperands)
  /-- VPBROADCASTW xmm1 {k1}{z}, reg (R73). -/
  | vpbroadcastwXmm (o : EvexOperands)
  /-- VPBROADCASTW ymm1 {k1}{z}, reg (R74). -/
  | vpbroadcastwYmm (o : EvexOperands)
  /-- VPBROADCASTW zmm1 {k1}{z}, reg (R75). -/
  | vpbroadcastwZmm (o : EvexOperands)
  /-- VPBROADCASTD xmm1 {k1}{z}, r32 (R76). -/
  | vpbroadcastdXmm (o : EvexOperands)
  /-- VPBROADCASTD ymm1 {k1}{z}, r32 (R77). -/
  | vpbroadcastdYmm (o : EvexOperands)
  /-- VPBROADCASTD zmm1 {k1}{z}, r32 (R78). -/
  | vpbroadcastdZmm (o : EvexOperands)
  /-- VPBROADCASTQ xmm1 {k1}{z}, r64 (R79). -/
  | vpbroadcastqXmm (o : EvexOperands)
  /-- VPBROADCASTQ ymm1 {k1}{z}, r64 (R80). -/
  | vpbroadcastqYmm (o : EvexOperands)
  /-- VPBROADCASTQ zmm1 {k1}{z}, r64 (R81). -/
  | vpbroadcastqZmm (o : EvexOperands)
  deriving DecidableEq, Repr

/-- The operand fields of an instruction. -/
def Instr.ops : Instr → EvexOperands
  | .vpbroadcastbXmm o => o
  | .vpbroadcastbYmm o => o
  | .vpbroadcastbZmm o => o
  | .vpbroadcastwXmm o => o
  | .vpbroadcastwYmm o => o
  | .vpbroadcastwZmm o => o
  | .vpbroadcastdXmm o => o
  | .vpbroadcastdYmm o => o
  | .vpbroadcastdZmm o => o
  | .vpbroadcastqXmm o => o
  | .vpbroadcastqYmm o => o
  | .vpbroadcastqZmm o => o

/-- The element width of an instruction's row. -/
def Instr.width : Instr → ElemWidth
  | .vpbroadcastbXmm _ => .byte
  | .vpbroadcastbYmm _ => .byte
  | .vpbroadcastbZmm _ => .byte
  | .vpbroadcastwXmm _ => .word
  | .vpbroadcastwYmm _ => .word
  | .vpbroadcastwZmm _ => .word
  | .vpbroadcastdXmm _ => .dword
  | .vpbroadcastdYmm _ => .dword
  | .vpbroadcastdZmm _ => .dword
  | .vpbroadcastqXmm _ => .qword
  | .vpbroadcastqYmm _ => .qword
  | .vpbroadcastqZmm _ => .qword

/-- The vector length of an instruction's row. -/
def Instr.len : Instr → VecLen
  | .vpbroadcastbXmm _ => .xmm
  | .vpbroadcastbYmm _ => .ymm
  | .vpbroadcastbZmm _ => .zmm
  | .vpbroadcastwXmm _ => .xmm
  | .vpbroadcastwYmm _ => .ymm
  | .vpbroadcastwZmm _ => .zmm
  | .vpbroadcastdXmm _ => .xmm
  | .vpbroadcastdYmm _ => .ymm
  | .vpbroadcastdZmm _ => .zmm
  | .vpbroadcastqXmm _ => .xmm
  | .vpbroadcastqYmm _ => .ymm
  | .vpbroadcastqZmm _ => .zmm

end Sys2Proof
end

