-- ==== Sys2Proof/WellFormed.lean ====
section
/-! DEFINITION. Which instructions some bytes mean in a mode. Three checks: zeroing needs a writemask
(30_encoding.md R54 d), the registers exist in the mode (10_state.md R10, R13), and the mode has the
element width (R52). The reserved field vvvv is not checked: another value than 1111b still selects
the row, and then faults (R44, R53). -/

namespace Sys2Proof

/-- `z = 1` needs a writemask (R54 d, R56). -/
def EvexOperands.zeroingHasMask (o : EvexOperands) : Bool :=
  !o.z || o.aaa != 0#3

/-- Both register numbers are below the mode's counts (R10, R13, R46, R47). -/
def EvexOperands.namesRegisters (m : Mode) (o : EvexOperands) : Bool :=
  decide (o.dst.toNat < m.nvec) && decide (o.src.toNat < m.ngpr)

/-- No bytes mean VPBROADCASTQ outside 64-bit mode (R52). -/
def ElemWidth.encodable (m : Mode) (w : ElemWidth) : Bool :=
  match m, w with
  | .mode32, .qword => false
  | _, _ => true

/-- The three checks together. -/
def EvexOperands.wellFormed (m : Mode) (w : ElemWidth) (o : EvexOperands) : Bool :=
  o.zeroingHasMask && o.namesRegisters m && w.encodable m

/-- Some bytes mean `i` in mode `m`. -/
def Instr.wellFormed (m : Mode) (i : Instr) : Bool :=
  i.ops.wellFormed m i.width

/-- `Instr.wellFormed` as a proposition. -/
abbrev WellFormed (m : Mode) (i : Instr) : Prop :=
  i.wellFormed m = true

end Sys2Proof
end

