-- ==== Sys2Proof/Decode.lean ====
section
/-! DEFINITION. Decoding six bytes into an instruction or a named refusal (30_encoding.md R40 to R58),
the encoder written from the same tables, the rows of the opcode table as masks, and the host's
reading of a table word. The bit layout of the EVEX bytes and of ModRM is the spec's own general
knowledge (GK1 to GK5; log 22). -/

namespace Sys2Proof

/-- The unsettled encodings of R54, by item, and a byte list too short to hold an instruction. Each
refuses; none is a fault (D6; log 12). All are safe. -/
inductive Unsettled where
  /-- Item a: ModRM.mod is not 11b, a memory operand. -/
  | memoryOperand
  /-- Item b: EVEX.b = 1. -/
  | evexB
  /-- Item c: L'L = 11b. -/
  | vectorLength11
  /-- Item d: z = 1 with aaa = 000b. -/
  | zeroingWithoutMask
  /-- Item e: stored V' = 0 in Mode64. -/
  | vPrime
  /-- Item f: stored X = 0 in Mode64. -/
  | extensionX
  /-- Item g: P0[3:2] is not 00b, or P1[2] is not 1. -/
  | reservedBits
  /-- Item h: W = 1 with opcode 7Ah or 7Bh. -/
  | wOnByteOrWord
  /-- Item i: a LOCK, 66h, F2h, F3h or REX byte before 62h. -/
  | legacyByteBefore
  /-- Item j: a segment-override or address-size byte before 62h. -/
  | segmentOrSizeByteBefore
  /-- Item k: Mode32 with stored R = 0 or stored X = 0. -/
  | boundInMode32
  /-- Item l: Mode32 with stored B = 0, stored R' = 0 or stored V' = 0. -/
  | extensionInMode32
  /-- Item m: another opcode map, implied byte or opcode: not this family. -/
  | otherInstruction
  /-- Fewer than six bytes are given (no rule; the fetch always gives six). -/
  | truncated
  deriving DecidableEq, Repr

/-- Why bytes that do not begin with the escape byte 62h are refused (R58 line 1; R54 i, j, m). -/
def firstByteReason (b0 b1 : Byte) : Unsettled :=
  if b1 ≠ 0x62#8 then .otherInstruction
  else if b0 = 0xF0#8 ∨ b0 = 0x66#8 ∨ b0 = 0xF2#8 ∨ b0 = 0xF3#8 ∨ b0.extractLsb' 4 4 = 4#4 then
    .legacyByteBefore
  else if b0 = 0x26#8 ∨ b0 = 0x2E#8 ∨ b0 = 0x36#8 ∨ b0 = 0x3E#8 ∨ b0 = 0x64#8 ∨ b0 = 0x65#8 ∨
      b0 = 0x67#8 then
    .segmentOrSizeByteBefore
  else .otherInstruction

/-- Byte 1, P0: the reserved bits, the opcode map and the stored extension bits (R41; R58 lines 2 to
4). -/
def p0Reason (m : Mode) (b1 : Byte) : Option Unsettled :=
  if b1.extractLsb' 2 2 ≠ 0b00#2 then some .reservedBits
  else if b1.extractLsb' 0 2 ≠ 0b10#2 then some .otherInstruction
  else
    match m with
    | .mode64 => if b1.getLsbD 6 then none else some .extensionX
    | .mode32 =>
      if !(b1.getLsbD 6 && b1.getLsbD 7) then some .boundInMode32
      else if !(b1.getLsbD 5 && b1.getLsbD 4) then some .extensionInMode32
      else none

/-- Byte 2, P1: the fixed bit and the implied byte 66 (R42; R58 line 5). -/
def p1Reason (b2 : Byte) : Option Unsettled :=
  if !b2.getLsbD 2 then some .reservedBits
  else if b2.extractLsb' 0 2 ≠ 0b01#2 then some .otherInstruction
  else none

/-- Byte 3, P2: EVEX.b, V', the vector length and the masking kind (R43; R58 lines 6 to 8). -/
def p2Reason (m : Mode) (b3 : Byte) : Option Unsettled :=
  if b3.getLsbD 4 then some .evexB
  else if !b3.getLsbD 3 then
    match m with
    | .mode64 => some .vPrime
    | .mode32 => some .extensionInMode32
  else if b3.extractLsb' 5 2 = 0b11#2 then some .vectorLength11
  else if b3.getLsbD 7 && b3.extractLsb' 0 3 == 0#3 then some .zeroingWithoutMask
  else none

/-- Bytes 4 and 5 with bit W of byte 2: the opcode, ModRM.mod, and W on opcodes 7Ah and 7Bh (R45;
R58 lines 9 to 11). -/
def opcodeReason (b2 b4 b5 : Byte) : Option Unsettled :=
  if b4 ≠ 0x7A#8 ∧ b4 ≠ 0x7B#8 ∧ b4 ≠ 0x7C#8 then some .otherInstruction
  else if b5.extractLsb' 6 2 ≠ 0b11#2 then some .memoryOperand
  else if b4 ≠ 0x7C#8 ∧ b2.getLsbD 7 = true then some .wOnByteOrWord
  else none

/-- The first refusal of R58 that six bytes meet, in R58's order; none where they are an instruction
of R44 (whatever vvvv is). -/
def unsettled (m : Mode) (b0 b1 b2 b3 b4 b5 : Byte) : Option Unsettled :=
  if b0 ≠ 0x62#8 then some (firstByteReason b0 b1)
  else
    (p0Reason m b1).or <| (p1Reason b2).or <| (p2Reason m b3).or <| opcodeReason b2 b4 b5

/-- The element width from the opcode byte and W (R51, R52, R82). Used on settled bytes only. -/
def elemWidthOf (m : Mode) (b2 b4 : Byte) : ElemWidth :=
  if b4 = 0x7A#8 then .byte
  else if b4 = 0x7B#8 then .word
  else
    match m with
    | .mode64 => if b2.getLsbD 7 then .qword else .dword
    | .mode32 => .dword

/-- The vector length from L'L (R50). Used on settled bytes only, where L'L is not 11b. -/
def vecLenOf (b3 : Byte) : VecLen :=
  if b3.extractLsb' 5 2 = 0b00#2 then .xmm
  else if b3.extractLsb' 5 2 = 0b01#2 then .ymm
  else .zmm

/-- The destination register number: `16*R' + 8*R + reg` in Mode64, `reg` in Mode32 (R46). -/
def dstOf (m : Mode) (b1 b5 : Byte) : BitVec 5 :=
  match m with
  | .mode64 => (~~~ b1.extractLsb' 4 1) ++ (~~~ b1.extractLsb' 7 1) ++ b5.extractLsb' 3 3
  | .mode32 => 0#2 ++ b5.extractLsb' 3 3

/-- The source register number: `8*B + r/m` in Mode64, `r/m` in Mode32 (R47). -/
def srcOf (m : Mode) (b1 b5 : Byte) : BitVec 4 :=
  match m with
  | .mode64 => (~~~ b1.extractLsb' 5 1) ++ b5.extractLsb' 0 3
  | .mode32 => 0#1 ++ b5.extractLsb' 0 3

/-- The operand fields of settled bytes (R46 to R49, R53). -/
def operandsOf (m : Mode) (b1 b2 b3 b5 : Byte) : EvexOperands where
  vvvv := b2.extractLsb' 3 4
  dst := dstOf m b1 b5
  src := srcOf m b1 b5
  aaa := b3.extractLsb' 0 3
  z := b3.getLsbD 7

/-- The row of the opcode table with a given element width and vector length (R44). -/
def mkInstr (w : ElemWidth) (l : VecLen) (o : EvexOperands) : Instr :=
  match w, l with
  | .byte, .xmm => .vpbroadcastbXmm o
  | .byte, .ymm => .vpbroadcastbYmm o
  | .byte, .zmm => .vpbroadcastbZmm o
  | .word, .xmm => .vpbroadcastwXmm o
  | .word, .ymm => .vpbroadcastwYmm o
  | .word, .zmm => .vpbroadcastwZmm o
  | .dword, .xmm => .vpbroadcastdXmm o
  | .dword, .ymm => .vpbroadcastdYmm o
  | .dword, .zmm => .vpbroadcastdZmm o
  | .qword, .xmm => .vpbroadcastqXmm o
  | .qword, .ymm => .vpbroadcastqYmm o
  | .qword, .zmm => .vpbroadcastqZmm o

/-- R58: an instruction with the bytes after it, or a refusal. R58's third answer, UD, is an
instruction whose vvvv is not 1111b; its meaning raises the fault (log 11). -/
def decode (m : Mode) : List Byte → Except Unsettled (Instr × List Byte)
  | b0 :: b1 :: b2 :: b3 :: b4 :: b5 :: rest =>
    match unsettled m b0 b1 b2 b3 b4 b5 with
    | some u => .error u
    | none => .ok (mkInstr (elemWidthOf m b2 b4) (vecLenOf b3) (operandsOf m b1 b2 b3 b5), rest)
  | _ => .error .truncated

/-- The opcode byte of a mnemonic (R45). -/
def ElemWidth.opcode : ElemWidth → Byte
  | .byte => 0x7A#8
  | .word => 0x7B#8
  | .dword => 0x7C#8
  | .qword => 0x7C#8

/-- The W bit of a mnemonic's row (R44). -/
def ElemWidth.evexW : ElemWidth → BitVec 1
  | .byte => 0#1
  | .word => 0#1
  | .dword => 0#1
  | .qword => 1#1

/-- L'L of a vector length (R50). -/
def VecLen.code : VecLen → BitVec 2
  | .xmm => 0b00#2
  | .ymm => 0b01#2
  | .zmm => 0b10#2

/-- The pattern R1Br0010 of P0, extension bits stored inverted (R41, R44). -/
def encodeP0 (dst : BitVec 5) (src : BitVec 4) : Byte :=
  (~~~ dst.extractLsb' 3 1) ++ 1#1 ++ (~~~ src.extractLsb' 3 1) ++ (~~~ dst.extractLsb' 4 1)
    ++ 0b0010#4

/-- The pattern Wvvvv101 of P1 (R42, R44). -/
def encodeP1 (w : ElemWidth) (vvvv : BitVec 4) : Byte :=
  w.evexW ++ vvvv ++ 0b101#3

/-- The pattern of P2: z, L'L, 0, 1, aaa (R43, R44). -/
def encodeP2 (l : VecLen) (z : Bool) (aaa : BitVec 3) : Byte :=
  BitVec.ofBool z ++ l.code ++ 0b01#2 ++ aaa

/-- The pattern 11gggmmm of ModRM (R44, R45). -/
def encodeModRM (dst : BitVec 5) (src : BitVec 4) : Byte :=
  0b11#2 ++ dst.extractLsb' 0 3 ++ src.extractLsb' 0 3

/-- The six bytes of an instruction (R40, R44). For an instruction well formed in Mode32 the stored
extension bits are all 1, as that mode wants them. -/
def encode (i : Instr) : List Byte :=
  [0x62#8, encodeP0 i.ops.dst i.ops.src, encodeP1 i.width i.ops.vvvv,
    encodeP2 i.len i.ops.z i.ops.aaa, i.width.opcode, encodeModRM i.ops.dst i.ops.src]

/-- A row of spec/opcode_table.json: its element width and length, and its mask and match, one byte
each for bytes 0 to 5 (R44). -/
structure TableRow where
  width : ElemWidth
  len : VecLen
  mask : List Byte
  pattern : List Byte
  deriving DecidableEq, Repr

/-- The rows' `mask` and `match` keys, for Mode64. -/
def tableRows64 : List TableRow :=
  [⟨.byte, .xmm, [0xFF#8, 0x4F#8, 0x87#8, 0x78#8, 0xFF#8, 0xC0#8], [0x62#8, 0x42#8, 0x05#8, 0x08#8, 0x7A#8, 0xC0#8]⟩,
   ⟨.byte, .ymm, [0xFF#8, 0x4F#8, 0x87#8, 0x78#8, 0xFF#8, 0xC0#8], [0x62#8, 0x42#8, 0x05#8, 0x28#8, 0x7A#8, 0xC0#8]⟩,
   ⟨.byte, .zmm, [0xFF#8, 0x4F#8, 0x87#8, 0x78#8, 0xFF#8, 0xC0#8], [0x62#8, 0x42#8, 0x05#8, 0x48#8, 0x7A#8, 0xC0#8]⟩,
   ⟨.word, .xmm, [0xFF#8, 0x4F#8, 0x87#8, 0x78#8, 0xFF#8, 0xC0#8], [0x62#8, 0x42#8, 0x05#8, 0x08#8, 0x7B#8, 0xC0#8]⟩,
   ⟨.word, .ymm, [0xFF#8, 0x4F#8, 0x87#8, 0x78#8, 0xFF#8, 0xC0#8], [0x62#8, 0x42#8, 0x05#8, 0x28#8, 0x7B#8, 0xC0#8]⟩,
   ⟨.word, .zmm, [0xFF#8, 0x4F#8, 0x87#8, 0x78#8, 0xFF#8, 0xC0#8], [0x62#8, 0x42#8, 0x05#8, 0x48#8, 0x7B#8, 0xC0#8]⟩,
   ⟨.dword, .xmm, [0xFF#8, 0x4F#8, 0x87#8, 0x78#8, 0xFF#8, 0xC0#8], [0x62#8, 0x42#8, 0x05#8, 0x08#8, 0x7C#8, 0xC0#8]⟩,
   ⟨.dword, .ymm, [0xFF#8, 0x4F#8, 0x87#8, 0x78#8, 0xFF#8, 0xC0#8], [0x62#8, 0x42#8, 0x05#8, 0x28#8, 0x7C#8, 0xC0#8]⟩,
   ⟨.dword, .zmm, [0xFF#8, 0x4F#8, 0x87#8, 0x78#8, 0xFF#8, 0xC0#8], [0x62#8, 0x42#8, 0x05#8, 0x48#8, 0x7C#8, 0xC0#8]⟩,
   ⟨.qword, .xmm, [0xFF#8, 0x4F#8, 0x87#8, 0x78#8, 0xFF#8, 0xC0#8], [0x62#8, 0x42#8, 0x85#8, 0x08#8, 0x7C#8, 0xC0#8]⟩,
   ⟨.qword, .ymm, [0xFF#8, 0x4F#8, 0x87#8, 0x78#8, 0xFF#8, 0xC0#8], [0x62#8, 0x42#8, 0x85#8, 0x28#8, 0x7C#8, 0xC0#8]⟩,
   ⟨.qword, .zmm, [0xFF#8, 0x4F#8, 0x87#8, 0x78#8, 0xFF#8, 0xC0#8], [0x62#8, 0x42#8, 0x85#8, 0x48#8, 0x7C#8, 0xC0#8]⟩]

/-- The rows' `non64_mask` and `non64_match` keys, for Mode32: P0 fixed, W free on the VPBROADCASTD
rows, no VPBROADCASTQ row. -/
def tableRows32 : List TableRow :=
  [⟨.byte, .xmm, [0xFF#8, 0xFF#8, 0x87#8, 0x78#8, 0xFF#8, 0xC0#8], [0x62#8, 0xF2#8, 0x05#8, 0x08#8, 0x7A#8, 0xC0#8]⟩,
   ⟨.byte, .ymm, [0xFF#8, 0xFF#8, 0x87#8, 0x78#8, 0xFF#8, 0xC0#8], [0x62#8, 0xF2#8, 0x05#8, 0x28#8, 0x7A#8, 0xC0#8]⟩,
   ⟨.byte, .zmm, [0xFF#8, 0xFF#8, 0x87#8, 0x78#8, 0xFF#8, 0xC0#8], [0x62#8, 0xF2#8, 0x05#8, 0x48#8, 0x7A#8, 0xC0#8]⟩,
   ⟨.word, .xmm, [0xFF#8, 0xFF#8, 0x87#8, 0x78#8, 0xFF#8, 0xC0#8], [0x62#8, 0xF2#8, 0x05#8, 0x08#8, 0x7B#8, 0xC0#8]⟩,
   ⟨.word, .ymm, [0xFF#8, 0xFF#8, 0x87#8, 0x78#8, 0xFF#8, 0xC0#8], [0x62#8, 0xF2#8, 0x05#8, 0x28#8, 0x7B#8, 0xC0#8]⟩,
   ⟨.word, .zmm, [0xFF#8, 0xFF#8, 0x87#8, 0x78#8, 0xFF#8, 0xC0#8], [0x62#8, 0xF2#8, 0x05#8, 0x48#8, 0x7B#8, 0xC0#8]⟩,
   ⟨.dword, .xmm, [0xFF#8, 0xFF#8, 0x07#8, 0x78#8, 0xFF#8, 0xC0#8], [0x62#8, 0xF2#8, 0x05#8, 0x08#8, 0x7C#8, 0xC0#8]⟩,
   ⟨.dword, .ymm, [0xFF#8, 0xFF#8, 0x07#8, 0x78#8, 0xFF#8, 0xC0#8], [0x62#8, 0xF2#8, 0x05#8, 0x28#8, 0x7C#8, 0xC0#8]⟩,
   ⟨.dword, .zmm, [0xFF#8, 0xFF#8, 0x07#8, 0x78#8, 0xFF#8, 0xC0#8], [0x62#8, 0xF2#8, 0x05#8, 0x48#8, 0x7C#8, 0xC0#8]⟩]

/-- The rows of a mode. -/
def tableRows : Mode → List TableRow
  | .mode64 => tableRows64
  | .mode32 => tableRows32

/-- `(bytes AND mask) = match`, byte by byte (R44). -/
def TableRow.matchesBytes (r : TableRow) (bs : List Byte) : Bool :=
  List.zipWith (· &&& ·) bs r.mask == r.pattern

/-- The six bytes of a table word with its first byte in bits 7..0. -/
def bytesLowFirst (w : Nat) : List Byte :=
  [BitVec.ofNat 8 w, BitVec.ofNat 8 (w >>> 8), BitVec.ofNat 8 (w >>> 16),
    BitVec.ofNat 8 (w >>> 24), BitVec.ofNat 8 (w >>> 32), BitVec.ofNat 8 (w >>> 40)]

/-- The bytes of a table word `w` of `nbits` bits. The host's first byte is bits 7..0;
the table's own `match` numbers have byte 0 as the most significant byte (R44). The word is read the
second way only where that, and not the first way, puts the escape byte 62h first (log 23). -/
def tableBytes (nbits w : Nat) : List Byte :=
  let low := bytesLowFirst (w % 2 ^ nbits)
  if low.head? ≠ some 0x62#8 ∧ low.getLast? = some 0x62#8 then low.reverse else low

/-- The instruction the decoder reads from a table word, in Mode64, the one mode with all twelve
rows (R44). -/
def decodeTableWord (nbits w : Nat) : Option Instr :=
  match decode .mode64 (tableBytes nbits w) with
  | .ok (i, _) => some i
  | .error _ => none

end Sys2Proof
end

