-- ==== Sys2Proof/Machine/State.lean ====
section
/-! DEFINITION. The state of the machine, plain data (10_state.md R10 to R23), the reasons a step can
stop, and the launch state (70_reset_and_hazards.md R110, R111). -/

namespace Sys2Proof.Machine

/-- The instruction space `cfg.CODE`, a partial function from address to byte (R5, R31): the pairs it
lists, addresses strictly rising. An address it does not list has no byte (log 9). -/
abbrev Memory := List Host.Cell

/-- Everything the spec gives the machine: INVENTORY.md, "State". -/
structure State where
  /-- The general-purpose registers (R10). -/
  gpr : Vector GprWord 16
  /-- The vector registers (R13). -/
  zmm : Vector ZmmWord 32
  /-- The opmask registers (R15). -/
  k : Vector KWord 8
  /-- The program counter (R17); in Mode32 its high half is 0 (log 7). -/
  pc : Addr
  /-- RFLAGS, which every rule leaves unchanged (R19; log 4). -/
  rflags : BitVec 64
  /-- MXCSR, which every rule leaves unchanged (R19; log 4). -/
  mxcsr : BitVec 32
  /-- The instruction space `cfg.CODE` (R31, R35). -/
  mem : Memory
  /-- The other parameters of a run (R2 to R5, R18, R20); no step changes them (log 1). -/
  cfg : Config
  deriving DecidableEq, Repr

/-- The two exceptions of the family, with the address of the instruction that raised it and nothing
else (R90, R96, R99). The run ends there. Both are safe: the chip's handler could go on, the model
does not (D14; log 14). -/
inductive Fault where
  /-- #UD. Every instruction raises it where vvvv is not 1111b, a CPUID flag of its row is 0, or
  AVX-512 state is not enabled (R53, R91, R93). Safe. -/
  | ud (pc : Addr)
  /-- #NM. Every instruction raises it where CR0.TS is 1 and no #UD condition holds (R94). Safe. -/
  | nm (pc : Addr)
  deriving DecidableEq, Repr

/-- Why the model gives a step no meaning (R7, `refuse`). All are safe. -/
inductive Refusal where
  /-- Raised by an arm of `exec` whose instruction has no meaning yet; no arm raises it now. Safe. -/
  | notModelled (mnemonic : String)
  /-- Raised by the step for bytes that are no row of R44 (R54, R58). Safe. -/
  | unsettledEncoding (item : Unsettled)
  /-- Raised by a meaning for operands that no bytes encode in the mode; a decoded instruction never
  raises it (R10, R13, R52, R54 d; log 13). Safe. -/
  | notEncodable
  /-- Raised by the fetch where `cfg.CODE` has no byte at the address (R31). Safe. -/
  | codeUndefined (addr : Nat)
  /-- Raised by the fetch where the six bytes would pass the top of the address space (R17). Safe. -/
  | fetchWraps
  deriving DecidableEq, Repr

/-- The configuration of the launch state: the boot premises of R111 in Mode64, the setting
95_test_vectors.md takes unless it says otherwise (log 2); `cfg.END` is 0 (log 25). -/
def launchConfig : Config where
  mode := .mode64
  avx512f := true
  avx512bw := true
  avx512vl := true
  osxsave := true
  xcr0Avx512 := 0b111
  xcr0AvxSse := 0b11
  ts := false
  endPc := 0

/-- The launch state this model names. The spec gives no reset value (R23, R110): every value here is
the model's own choice, said in the logs 2, 3, 4, 9 and 25. -/
def State.reset : State where
  gpr := Vector.replicate 16 0
  zmm := Vector.replicate 32 0
  k := Vector.replicate 8 0
  pc := 0
  rflags := 0x2
  mxcsr := 0x1F80
  mem := []
  cfg := launchConfig

end Sys2Proof.Machine
end

