-- ==== Sys2Proof/Machine/Ops.lean ====
section
/-! DEFINITION. The named operations over registers, memory and the program counter, the fetch of an
instruction's bytes, and the raising of an exception. No return from an exception exists: a fault is
terminal (60_exceptions.md R99, R100). -/

namespace Sys2Proof.Machine

/-- `gpr[n]` (R7, R10). No register is hardwired. -/
def readGpr (s : State) (n : BitVec 4) : GprWord :=
  s.gpr[n.toNat]'n.isLt

/-- `zmm[n]` (R7, R13). -/
def readZmm (s : State) (n : BitVec 5) : ZmmWord :=
  s.zmm[n.toNat]'n.isLt

/-- `k[n]` (R7, R15). -/
def readK (s : State) (n : BitVec 3) : KWord :=
  s.k[n.toNat]'n.isLt

/-- `zmm[n] <- v`, all 512 bits (R7, R14). -/
def writeZmm (n : BitVec 5) (v : ZmmWord) (s : State) : State :=
  { s with zmm := s.zmm.set n.toNat v n.isLt }

/-- The address six bytes on, in a program counter as wide as the mode's (R17, R67). Where the six
bytes end exactly at the top of the space it is 0 (log 7). -/
def nextPc (m : Mode) (pc : Addr) : Addr :=
  match m with
  | .mode64 => pc + 6
  | .mode32 => (pc.setWidth 32 + 6).setWidth 64

/-- `pc <- pc + 6` (R67). -/
def advancePc (s : State) : State :=
  { s with pc := nextPc s.cfg.mode s.pc }

/-- The two exception names (R90). -/
inductive Exception where
  | ud
  | nm
  deriving DecidableEq, Repr

/-- Taking an exception: the terminal outcome `Fault(kind, pc)`, nothing written (R97, R99). -/
def raise (e : Exception) (s : State) : Host.Outcome State Fault Refusal :=
  match e with
  | .ud => .fault (.ud s.pc)
  | .nm => .fault (.nm s.pc)

/-- The vector number of a fault, a label only (R90, R96; log 15). -/
def vectorNumber : Fault → Nat
  | .ud _ => 6
  | .nm _ => 7

/-- The canonical form: addresses strictly rising and inside the 64-bit space. No entry can equal what
an unlisted address reads as, since that is no byte at all (log 9). -/
def Memory.wf (m : Memory) : Bool :=
  decide (m.Pairwise fun a b => a.1 < b.1) && m.all fun c => decide (c.1 < 2 ^ 64)

/-- `Fetch(a)`: the byte listed at an address; none where `cfg.CODE` is undefined (R7, R31). -/
def Memory.read : Memory → Nat → Option Byte
  | [], _ => none
  | (a, b) :: rest, x => if a = x then some b else Memory.read rest x

/-- The memory with one byte put at an address, in the canonical form. No step uses it; it is how a
program is placed from outside (R110; log 24). -/
def Memory.write : Memory → Nat → Byte → Memory
  | [], x, v => [(x, v)]
  | (a, b) :: rest, x, v =>
    if x < a then (x, v) :: (a, b) :: rest
    else if x = a then (x, v) :: rest
    else (a, b) :: Memory.write rest x v

/-- Bytes put at consecutive addresses of the 64-bit space, the first at the lowest (R40). -/
def Memory.place (m : Memory) : Addr → List Byte → Memory
  | _, [] => m
  | a, b :: bs => Memory.place (m.write a.toNat b) (a + 1) bs

/-- The `n` bytes from address `a` on, in address order, or the first undefined address. -/
def readBytes (m : Memory) : Nat → Nat → Except Nat (List Byte)
  | _, 0 => .ok []
  | a, n + 1 =>
    match m.read a with
    | none => .error a
    | some b =>
      match readBytes m (a + 1) n with
      | .error x => .error x
      | .ok bs => .ok (b :: bs)

/-- The six bytes at `pc` (R31). Refused where they would pass the top of the address space (R17) and
where one of them is undefined. There is no alignment requirement (R33). -/
def fetch (s : State) : Except Refusal (List Byte) :=
  if 2 ^ s.cfg.mode.pcBits ≤ s.pc.toNat + 5 then .error .fetchWraps
  else
    match readBytes s.mem s.pc.toNat 6 with
    | .error a => .error (.codeUndefined a)
    | .ok bs => .ok bs

end Sys2Proof.Machine
end

