-- ==== Sys2Proof/Machine/Flags.lean ====
section
/-! DEFINITION. The flags an instruction of this family consults: the CPUID feature flags of its row
(00_scope.md R2) and the enabling bits behind exception class E7NM (10_state.md R20). The family
computes and writes no status flag (R19, R64). -/

namespace Sys2Proof.Machine

/-- One CPUID feature flag (R2, R21). -/
def hasFeature (c : Config) : Feature → Bool
  | .avx512f => c.avx512f
  | .avx512bw => c.avx512bw
  | .avx512vl => c.avx512vl

/-- Every flag the row names is 1: a conjunction (R2, D3; log 16). -/
def featuresPresent (c : Config) (need : List Feature) : Bool :=
  need.all (hasFeature c)

/-- `cfg.ENABLED`: CR4.OSXSAVE = 1 and XCR0[7:5] = 111b and XCR0[2:1] = 11b (R20; log 17). -/
def avx512Enabled (c : Config) : Bool :=
  c.osxsave && c.xcr0Avx512 == 0b111#3 && c.xcr0AvxSse == 0b11#2

end Sys2Proof.Machine
end

