-- ==== Sys2Proof/Machine/Operands.lean ====
section
/-! DEFINITION. The operand forms: the source value (40_vpbroadcast_gpr.md R61), the writemask (R48),
the elements of a vector register, and the masked broadcast (R62, R63). -/

namespace Sys2Proof.Machine

/-- Some bytes mean an instruction with these operands in this mode (WellFormed.lean; log 13). -/
def formAdmitted (m : Mode) (w : ElemWidth) (o : EvexOperands) : Bool :=
  o.wellFormed m w

/-- `e`, the low `ew` bits of the source register: never a high-byte register (R11, R61, D21). -/
def sourceValue (s : State) (w : ElemWidth) (src : BitVec 4) : BitVec w.bits :=
  (readGpr s src).extractLsb' 0 w.bits

/-- The writemask the field `aaa` selects; none is the source's "*no writemask*" (R15, R48). -/
def writemask (s : State) (aaa : BitVec 3) : Option KWord :=
  if aaa = 0#3 then none else some (readK s aaa)

/-- Element `j` is enabled: "k1[j] OR *no writemask*" (R62). -/
def elementEnabled (mask : Option KWord) (j : Nat) : Bool :=
  match mask with
  | none => true
  | some k => k.getLsbD j

/-- Element `j` of width `n`, bits `j*n + n - 1 : j*n`; element 0 is the least significant (R32,
R62). -/
def element {n : Nat} (v : ZmmWord) (j : Nat) : BitVec n :=
  v.extractLsb' (j * n) n

/-- `v[j*n + n - 1 : j*n] <- x`. -/
def setElement {n : Nat} (v : ZmmWord) (j : Nat) (x : BitVec n) : ZmmWord :=
  (v &&& ~~~ ((BitVec.allOnes n).setWidth 512 <<< (j * n))) ||| (x.setWidth 512 <<< (j * n))

/-- What element `j` becomes: the value, or under a clear mask bit its old value (merging) or 0
(zeroing) (R62). -/
def newElement {n : Nat} (e : BitVec n) (mask : Option KWord) (z : Bool) (old : ZmmWord) (j : Nat) :
    BitVec n :=
  if elementEnabled mask j then e
  else if z then 0#n
  else element old j

/-- The loop of R62 over elements `0 .. kl - 1`, from a register of 512 zeros: bits from VL up stay 0
(R63). -/
def broadcastLoop {n : Nat} (e : BitVec n) (mask : Option KWord) (z : Bool) (old : ZmmWord) :
    Nat → ZmmWord
  | 0 => 0#512
  | kl + 1 => setElement (broadcastLoop e mask z old kl) kl (newElement e mask z old kl)

/-- `KL`, the element count `VL / ew` (R50). -/
def elementCount (w : ElemWidth) (l : VecLen) : Nat :=
  l.bits / w.bits

/-- `Broadcast(ew, VL, e, aaa, z, old)` of R62. -/
def broadcast (w : ElemWidth) (l : VecLen) (e : BitVec w.bits) (mask : Option KWord) (z : Bool)
    (old : ZmmWord) : ZmmWord :=
  broadcastLoop e mask z old (elementCount w l)

end Sys2Proof.Machine
end

