-- ==== Sys2Proof/Machine/Broadcast.lean ====
section
/-! DEFINITION. The meanings of the twelve instructions (40_vpbroadcast_gpr.md R70 to R81) over one
shared operation (R60). Each meaning lists the CPUID cell of its own row (00_scope.md R2). -/

namespace Sys2Proof.Machine

/-- The register effect of R60: the broadcast written to `zmm[dst]`, and `pc <- pc + 6`. -/
def broadcastEffect (w : ElemWidth) (l : VecLen) (o : EvexOperands) (s : State) : State :=
  advancePc <|
    writeZmm o.dst
      (broadcast w l (sourceValue s w o.src) (writemask s o.aaa) o.z (readZmm s o.dst)) s

/-- R60 after the decode: the refusal of operands no bytes encode, then every #UD condition, then
#NM, then the effect (R65, R98; log 18). -/
def broadcastGpr (w : ElemWidth) (l : VecLen) (need : List Feature) (o : EvexOperands) (s : State) :
    Host.Outcome State Fault Refusal :=
  if !formAdmitted s.cfg.mode w o then .refused .notEncodable
  else if o.vvvv ≠ 0b1111#4 then raise .ud s
  else if !featuresPresent s.cfg need then raise .ud s
  else if !avx512Enabled s.cfg then raise .ud s
  else if s.cfg.ts then raise .nm s
  else .next (broadcastEffect w l o s)

/-- VPBROADCASTB xmm1 {k1}{z}, reg (R70). -/
def execVpbroadcastbXmm (o : EvexOperands) (s : State) : Host.Outcome State Fault Refusal :=
  broadcastGpr .byte .xmm [.avx512vl, .avx512bw] o s

/-- VPBROADCASTB ymm1 {k1}{z}, reg (R71). -/
def execVpbroadcastbYmm (o : EvexOperands) (s : State) : Host.Outcome State Fault Refusal :=
  broadcastGpr .byte .ymm [.avx512vl, .avx512bw] o s

/-- VPBROADCASTB zmm1 {k1}{z}, reg (R72). -/
def execVpbroadcastbZmm (o : EvexOperands) (s : State) : Host.Outcome State Fault Refusal :=
  broadcastGpr .byte .zmm [.avx512bw] o s

/-- VPBROADCASTW xmm1 {k1}{z}, reg (R73). -/
def execVpbroadcastwXmm (o : EvexOperands) (s : State) : Host.Outcome State Fault Refusal :=
  broadcastGpr .word .xmm [.avx512vl, .avx512bw] o s

/-- VPBROADCASTW ymm1 {k1}{z}, reg (R74). -/
def execVpbroadcastwYmm (o : EvexOperands) (s : State) : Host.Outcome State Fault Refusal :=
  broadcastGpr .word .ymm [.avx512vl, .avx512bw] o s

/-- VPBROADCASTW zmm1 {k1}{z}, reg (R75). -/
def execVpbroadcastwZmm (o : EvexOperands) (s : State) : Host.Outcome State Fault Refusal :=
  broadcastGpr .word .zmm [.avx512bw] o s

/-- VPBROADCASTD xmm1 {k1}{z}, r32 (R76; in Mode32 also the bytes with W = 1, R82). -/
def execVpbroadcastdXmm (o : EvexOperands) (s : State) : Host.Outcome State Fault Refusal :=
  broadcastGpr .dword .xmm [.avx512vl, .avx512f] o s

/-- VPBROADCASTD ymm1 {k1}{z}, r32 (R77; in Mode32 also the bytes with W = 1, R82). -/
def execVpbroadcastdYmm (o : EvexOperands) (s : State) : Host.Outcome State Fault Refusal :=
  broadcastGpr .dword .ymm [.avx512vl, .avx512f] o s

/-- VPBROADCASTD zmm1 {k1}{z}, r32 (R78; in Mode32 also the bytes with W = 1, R82). -/
def execVpbroadcastdZmm (o : EvexOperands) (s : State) : Host.Outcome State Fault Refusal :=
  broadcastGpr .dword .zmm [.avx512f] o s

/-- VPBROADCASTQ xmm1 {k1}{z}, r64, Mode64 only (R79). -/
def execVpbroadcastqXmm (o : EvexOperands) (s : State) : Host.Outcome State Fault Refusal :=
  broadcastGpr .qword .xmm [.avx512vl, .avx512f] o s

/-- VPBROADCASTQ ymm1 {k1}{z}, r64, Mode64 only (R80). -/
def execVpbroadcastqYmm (o : EvexOperands) (s : State) : Host.Outcome State Fault Refusal :=
  broadcastGpr .qword .ymm [.avx512vl, .avx512f] o s

/-- VPBROADCASTQ zmm1 {k1}{z}, r64, Mode64 only (R81). -/
def execVpbroadcastqZmm (o : EvexOperands) (s : State) : Host.Outcome State Fault Refusal :=
  broadcastGpr .qword .zmm [.avx512f] o s

end Sys2Proof.Machine
end

