-- ==== Sys2Proof/Machine/Dispatch.lean ====
section
/-! DEFINITION. One arm per instruction, each one direct call of its meaning. -/

namespace Sys2Proof.Machine

/-- The meaning of an instruction in a state (40_vpbroadcast_gpr.md R60). -/
def exec (i : Instr) (s : State) : Host.Outcome State Fault Refusal :=
  match i with
  | .vpbroadcastbXmm o => Sys2Proof.Machine.execVpbroadcastbXmm o s
  | .vpbroadcastbYmm o => Sys2Proof.Machine.execVpbroadcastbYmm o s
  | .vpbroadcastbZmm o => Sys2Proof.Machine.execVpbroadcastbZmm o s
  | .vpbroadcastwXmm o => Sys2Proof.Machine.execVpbroadcastwXmm o s
  | .vpbroadcastwYmm o => Sys2Proof.Machine.execVpbroadcastwYmm o s
  | .vpbroadcastwZmm o => Sys2Proof.Machine.execVpbroadcastwZmm o s
  | .vpbroadcastdXmm o => Sys2Proof.Machine.execVpbroadcastdXmm o s
  | .vpbroadcastdYmm o => Sys2Proof.Machine.execVpbroadcastdYmm o s
  | .vpbroadcastdZmm o => Sys2Proof.Machine.execVpbroadcastdZmm o s
  | .vpbroadcastqXmm o => Sys2Proof.Machine.execVpbroadcastqXmm o s
  | .vpbroadcastqYmm o => Sys2Proof.Machine.execVpbroadcastqYmm o s
  | .vpbroadcastqZmm o => Sys2Proof.Machine.execVpbroadcastqZmm o s

end Sys2Proof.Machine
end

