-- ==== Sys2Proof/Machine/Step.lean ====
section
/-! DEFINITION. One step of the processor (40_vpbroadcast_gpr.md R60): fetch, decode, execute; and the
placing of an instruction where the step fetches. -/

namespace Sys2Proof.Machine

/-- R60. A fetch or a decode that is refused refuses the step; the rest is `exec`. -/
def step (s : State) : Host.Outcome State Fault Refusal :=
  match fetch s with
  | .error r => .refused r
  | .ok bs =>
    match decode s.cfg.mode bs with
    | .error u => .refused (.unsettledEncoding u)
    | .ok (i, _) => exec i s

/-- The state with the bytes of a table word at `pc`, where the step fetches them (R31; logs 23 and
24). -/
def State.withFetchWord (s : State) (nbits w : Nat) : State :=
  { s with mem := s.mem.place s.pc (tableBytes nbits w) }

end Sys2Proof.Machine
end

