-- ==== Sys2Proof/Laws/Memory.lean ====
section
/-! SUPPORT. Memory: a read after a write, and the canonical form every memory operation keeps. -/

namespace Sys2Proof.Machine

theorem Memory.wf_iff (m : Memory) :
    m.wf = true ↔ (m.Pairwise fun a b => a.1 < b.1) ∧ ∀ c ∈ m, c.1 < 2 ^ 64 := by
  simp [Memory.wf]

theorem Memory.read_write_same (m : Memory) (x : Nat) (v : Byte) : (m.write x v).read x = some v := by
  induction m with
  | nil => simp [Memory.write, Memory.read]
  | cons c rest ih =>
    obtain ⟨a, b⟩ := c
    simp only [Memory.write]
    split
    · simp [Memory.read]
    · split
      · simp [Memory.read]
      · have hne : a ≠ x := by omega
        simp [Memory.read, hne, ih]

theorem Memory.read_write_other (m : Memory) (x y : Nat) (v : Byte) (h : y ≠ x) :
    (m.write x v).read y = m.read y := by
  induction m with
  | nil => simp [Memory.write, Memory.read, h.symm]
  | cons c rest ih =>
    obtain ⟨a, b⟩ := c
    simp only [Memory.write]
    split
    · simp [Memory.read, h.symm]
    · split
      · subst x; simp [Memory.read, h.symm]
      · simp [Memory.read, ih]

/-- The addresses listed after a write are the old ones and the written one. -/
theorem Memory.mem_write {m : Memory} {x : Nat} {v : Byte} {c : Host.Cell} (h : c ∈ m.write x v) :
    c = (x, v) ∨ c ∈ m := by
  induction m with
  | nil => simpa [Memory.write] using h
  | cons d rest ih =>
    obtain ⟨a, b⟩ := d
    simp only [Memory.write] at h
    split at h
    · simpa using h
    · split at h
      · rcases List.mem_cons.mp h with h | h
        · exact .inl h
        · exact .inr (List.mem_cons_of_mem _ h)
      · rcases List.mem_cons.mp h with h | h
        · exact .inr (by simp [h])
        · exact (ih h).imp id (List.mem_cons_of_mem _)

theorem Memory.write_wf {m : Memory} {x : Nat} (v : Byte) (hx : x < 2 ^ 64) (h : m.wf = true) :
    (m.write x v).wf = true := by
  rw [Memory.wf_iff] at h ⊢
  refine ⟨?_, fun c hc => ?_⟩
  · have hp := h.1
    clear h
    induction m with
    | nil => simp [Memory.write]
    | cons d rest ih =>
      obtain ⟨a, b⟩ := d
      obtain ⟨hlt, hrest⟩ := List.pairwise_cons.mp hp
      simp only [Memory.write]
      split
      · rename_i hxa
        refine List.pairwise_cons.mpr ⟨fun c hc => ?_, hp⟩
        rcases List.mem_cons.mp hc with rfl | hc
        · exact hxa
        · exact Nat.lt_trans hxa (hlt c hc)
      · split
        · rename_i _ hxa
          subst hxa
          exact List.pairwise_cons.mpr ⟨hlt, hrest⟩
        · refine List.pairwise_cons.mpr ⟨fun c hc => ?_, ih hrest⟩
          rcases Memory.mem_write hc with rfl | hc
          · show a < x
            omega
          · exact hlt c hc
  · rcases Memory.mem_write hc with rfl | hc
    · exact hx
    · exact h.2 c hc

theorem Memory.place_wf {m : Memory} (a : Addr) (bs : List Byte) (h : m.wf = true) :
    (m.place a bs).wf = true := by
  induction bs generalizing m a with
  | nil => exact h
  | cons b bs ih => exact ih (a + 1) (Memory.write_wf b a.isLt h)

/-- Placing a program from outside keeps the canonical form. -/
theorem withFetchWord_wf (s : State) (nbits w : Nat) (h : s.mem.wf = true) :
    (s.withFetchWord nbits w).mem.wf = true :=
  Memory.place_wf s.pc _ h

theorem reset_mem_wf : State.reset.mem.wf = true := by decide

/-- The address `k` bytes on, where it does not pass the top. -/
theorem addr_add_toNat {a : Addr} {k : Nat} (h : a.toNat + k < 2 ^ 64) :
    (a + BitVec.ofNat 64 k).toNat = a.toNat + k := by
  simp only [BitVec.toNat_add, BitVec.toNat_ofNat]
  omega

/-- Placed bytes leave the addresses below alone. -/
theorem Memory.read_place_below (m : Memory) (a : Addr) (bs : List Byte) (x : Nat)
    (hx : x < a.toNat) (hb : a.toNat + bs.length ≤ 2 ^ 64) :
    (m.place a bs).read x = m.read x := by
  induction bs generalizing m a with
  | nil => rfl
  | cons b bs ih =>
    simp only [List.length_cons] at hb
    simp only [Memory.place]
    cases bs with
    | nil => exact Memory.read_write_other _ _ _ _ (by omega)
    | cons c cs =>
      have ha : (a + 1).toNat = a.toNat + 1 :=
        addr_add_toNat (a := a) (k := 1) (by simp at hb; omega)
      rw [ih _ (a + 1) (by omega) (by omega), Memory.read_write_other _ _ _ _ (by omega)]

/-- What is read where bytes were placed. -/
theorem Memory.read_place (m : Memory) (a : Addr) (bs : List Byte) (k : Nat) (hk : k < bs.length)
    (hb : a.toNat + bs.length ≤ 2 ^ 64) : (m.place a bs).read (a.toNat + k) = some bs[k] := by
  induction bs generalizing m a k with
  | nil => simp at hk
  | cons b bs ih =>
    simp only [List.length_cons] at hb hk
    simp only [Memory.place]
    cases bs with
    | nil =>
      have hk0 : k = 0 := by simp at hk; omega
      subst hk0
      exact Memory.read_write_same _ _ _
    | cons c cs =>
      have ha : (a + 1).toNat = a.toNat + 1 :=
        addr_add_toNat (a := a) (k := 1) (by simp at hb; omega)
      cases k with
      | zero =>
        rw [Nat.add_zero, Memory.read_place_below _ _ _ _ (by omega) (by omega)]
        exact Memory.read_write_same _ _ _
      | succ k =>
        have := ih (m.write a.toNat b) (a + 1) k (by omega) (by omega)
        rw [ha] at this
        simpa [Nat.add_assoc, Nat.add_comm 1] using this

/-- Six defined bytes are what `readBytes` answers. -/
theorem readBytes_six {m : Memory} {a : Nat} {b0 b1 b2 b3 b4 b5 : Byte} (h0 : m.read a = some b0)
    (h1 : m.read (a + 1) = some b1) (h2 : m.read (a + 2) = some b2) (h3 : m.read (a + 3) = some b3)
    (h4 : m.read (a + 4) = some b4) (h5 : m.read (a + 5) = some b5) :
    readBytes m a 6 = .ok [b0, b1, b2, b3, b4, b5] := by
  simp [readBytes, h0, h1, h2, h3, h4, h5]

/-- What `readBytes` answers was read, byte by byte. -/
theorem readBytes_ok {m : Memory} {a n : Nat} {bs : List Byte} (h : readBytes m a n = .ok bs) :
    bs.length = n ∧ ∀ k (hk : k < bs.length), m.read (a + k) = some bs[k] := by
  induction n generalizing a bs with
  | zero =>
    simp only [readBytes, Except.ok.injEq] at h
    subst h
    simp
  | succ n ih =>
    simp only [readBytes] at h
    split at h
    · cases h
    · rename_i b hb
      split at h
      · cases h
      · rename_i bs' hbs
        simp only [Except.ok.injEq] at h
        subst h
        obtain ⟨hlen, hread⟩ := ih hbs
        refine ⟨by simp [hlen], fun k hk => ?_⟩
        cases k with
        | zero => simpa using hb
        | succ k =>
          have := hread k (by simpa using hk)
          simpa [Nat.add_assoc, Nat.add_comm 1] using this

end Sys2Proof.Machine
end

