-- ==== Sys2Proof/Laws/State.lean ====
section
/-! SUPPORT. What each state update leaves in each field, and what the register reads see of it. -/

namespace Sys2Proof.Machine

variable (n m : BitVec 5) (v : ZmmWord) (s : State)

@[simp] theorem writeZmm_gpr : (writeZmm n v s).gpr = s.gpr := rfl
@[simp] theorem writeZmm_zmm : (writeZmm n v s).zmm = s.zmm.set n.toNat v n.isLt := rfl
@[simp] theorem writeZmm_k : (writeZmm n v s).k = s.k := rfl
@[simp] theorem writeZmm_pc : (writeZmm n v s).pc = s.pc := rfl
@[simp] theorem writeZmm_rflags : (writeZmm n v s).rflags = s.rflags := rfl
@[simp] theorem writeZmm_mxcsr : (writeZmm n v s).mxcsr = s.mxcsr := rfl
@[simp] theorem writeZmm_mem : (writeZmm n v s).mem = s.mem := rfl
@[simp] theorem writeZmm_cfg : (writeZmm n v s).cfg = s.cfg := rfl

@[simp] theorem advancePc_gpr : (advancePc s).gpr = s.gpr := rfl
@[simp] theorem advancePc_zmm : (advancePc s).zmm = s.zmm := rfl
@[simp] theorem advancePc_k : (advancePc s).k = s.k := rfl
@[simp] theorem advancePc_pc : (advancePc s).pc = nextPc s.cfg.mode s.pc := rfl
@[simp] theorem advancePc_rflags : (advancePc s).rflags = s.rflags := rfl
@[simp] theorem advancePc_mxcsr : (advancePc s).mxcsr = s.mxcsr := rfl
@[simp] theorem advancePc_mem : (advancePc s).mem = s.mem := rfl
@[simp] theorem advancePc_cfg : (advancePc s).cfg = s.cfg := rfl

variable (nbits w : Nat)

@[simp] theorem withFetchWord_gpr : (s.withFetchWord nbits w).gpr = s.gpr := rfl
@[simp] theorem withFetchWord_zmm : (s.withFetchWord nbits w).zmm = s.zmm := rfl
@[simp] theorem withFetchWord_k : (s.withFetchWord nbits w).k = s.k := rfl
@[simp] theorem withFetchWord_pc : (s.withFetchWord nbits w).pc = s.pc := rfl
@[simp] theorem withFetchWord_rflags : (s.withFetchWord nbits w).rflags = s.rflags := rfl
@[simp] theorem withFetchWord_mxcsr : (s.withFetchWord nbits w).mxcsr = s.mxcsr := rfl
@[simp] theorem withFetchWord_mem :
    (s.withFetchWord nbits w).mem = s.mem.place s.pc (tableBytes nbits w) := rfl
@[simp] theorem withFetchWord_cfg : (s.withFetchWord nbits w).cfg = s.cfg := rfl

@[simp] theorem readZmm_advancePc : readZmm (advancePc s) n = readZmm s n := rfl

@[simp] theorem readZmm_writeZmm_same : readZmm (writeZmm n v s) n = v := by
  simp [readZmm]

theorem readZmm_writeZmm_other (h : m ≠ n) : readZmm (writeZmm n v s) m = readZmm s m := by
  have hne : n.toNat ≠ m.toNat := fun e => h (BitVec.eq_of_toNat_eq e.symm)
  simp [readZmm, Vector.getElem_set_ne, hne]

/-- The register reads depend on their own register file alone. -/
theorem readGpr_congr {s t : State} (h : t.gpr = s.gpr) (r : BitVec 4) :
    readGpr t r = readGpr s r := by
  simp [readGpr, h]

theorem readK_congr {s t : State} (h : t.k = s.k) (r : BitVec 3) : readK t r = readK s r := by
  simp [readK, h]

end Sys2Proof.Machine
end

