-- ==== Sys2Proof/Safety.lean ====
section
/-! DEFINITION. The terms claims use: when an instruction completes, what it leaves, the frame, the
invariant every step keeps, the variations of 30_encoding.md R54, and the end of a run (R112). The
result predicates are written out from the rules and call no function of Machine/Operands.lean. -/

namespace Sys2Proof.Machine

/-- The CPUID cell of a row, by element width and vector length (R2). -/
def rowFeatures (ew : ElemWidth) (l : VecLen) : List Feature :=
  (match l with
   | .xmm => [.avx512vl]
   | .ymm => [.avx512vl]
   | .zmm => []) ++
  match ew with
  | .byte => [.avx512bw]
  | .word => [.avx512bw]
  | .dword => [.avx512f]
  | .qword => [.avx512f]

/-- `cfg.ENABLED` as R20 spells it. -/
abbrev Avx512StateEnabled (c : Config) : Prop :=
  c.osxsave = true ∧ c.xcr0Avx512 = 0b111#3 ∧ c.xcr0AvxSse = 0b11#2

/-- The #UD conditions of an instruction (R53, R91, R93). -/
abbrev UdCondition (i : Instr) (s : State) : Prop :=
  i.ops.vvvv ≠ 0b1111#4 ∨ (∃ f ∈ rowFeatures i.width i.len, hasFeature s.cfg f = false) ∨
    ¬ Avx512StateEnabled s.cfg

/-- Everything but the destination register and `pc` is as it was, every byte of memory among it
(R64). -/
def OnlyDestinationAndPcChange (dst : BitVec 5) (s t : State) : Prop :=
  t.gpr = s.gpr ∧ t.k = s.k ∧ t.rflags = s.rflags ∧ t.mxcsr = s.mxcsr ∧ t.cfg = s.cfg ∧
    (∀ n, n ≠ dst → readZmm t n = readZmm s n) ∧ ∀ a, t.mem.read a = s.mem.read a

/-- Element `j` of the destination, for element width `ew`, as the listings give it (R62): the low
`ew` bits of the source where there is no writemask or mask bit `j` is 1; else the old element under
merging, 0 under zeroing. -/
def listedElement (ew : Nat) (o : EvexOperands) (s : State) (j : Nat) : BitVec ew :=
  if o.aaa = 0#3 ∨ (readK s o.aaa).getLsbD j = true then (readGpr s o.src).extractLsb' 0 ew
  else if o.z = false then (readZmm s o.dst).extractLsb' (j * ew) ew
  else 0#ew

/-- What a row with element width `ew`, `kl` elements and vector length `vl` leaves (R60 to R64,
R67). -/
def BroadcastResult (ew kl vl : Nat) (o : EvexOperands) (s t : State) : Prop :=
  (∀ j, j < kl → (readZmm t o.dst).extractLsb' (j * ew) ew = listedElement ew o s j) ∧
    (readZmm t o.dst).extractLsb' vl (512 - vl) = 0#(512 - vl) ∧
    t.pc = nextPc s.cfg.mode s.pc ∧
    OnlyDestinationAndPcChange o.dst s t

/-- The invariant: the memory is in its canonical form, and `pc` is inside the mode's address space
(R17). -/
abbrev Inv (s : State) : Prop :=
  s.mem.wf = true ∧ s.pc.toNat < 2 ^ s.cfg.mode.pcBits

/-- The boot premises (2) to (4) of R111, for every row at once. -/
def BootPremises (c : Config) : Prop :=
  (∀ f, hasFeature c f = true) ∧ Avx512StateEnabled c ∧ c.ts = false

/-- Six bytes at `pc`, none past the top of the address space (R17, R31). -/
abbrev CodeAt (s : State) (b0 b1 b2 b3 b4 b5 : Byte) : Prop :=
  s.pc.toNat + 5 < 2 ^ s.cfg.mode.pcBits ∧
    s.mem.read s.pc.toNat = some b0 ∧ s.mem.read (s.pc.toNat + 1) = some b1 ∧
    s.mem.read (s.pc.toNat + 2) = some b2 ∧ s.mem.read (s.pc.toNat + 3) = some b3 ∧
    s.mem.read (s.pc.toNat + 4) = some b4 ∧ s.mem.read (s.pc.toNat + 5) = some b5

/-- One of the variations a to m of R54, read off the bytes. Items i and j have a first byte other
than 62h, which item m takes in. -/
def Variation (m : Mode) (b0 b1 b2 b3 b4 b5 : Byte) : Prop :=
  b5.extractLsb' 6 2 ≠ 0b11#2 ∨                                              -- a
  b3.getLsbD 4 = true ∨                                                    -- b
  b3.extractLsb' 5 2 = 0b11#2 ∨                                              -- c
  (b3.getLsbD 7 = true ∧ b3.extractLsb' 0 3 = 0b000#3) ∨                     -- d
  b3.getLsbD 3 = false ∨                                                   -- e, l
  b1.getLsbD 6 = false ∨                                                   -- f, k
  b1.extractLsb' 2 2 ≠ 0b00#2 ∨ b2.getLsbD 2 = false ∨                       -- g
  (b2.getLsbD 7 = true ∧ (b4 = 0x7A#8 ∨ b4 = 0x7B#8)) ∨                        -- h
  b0 ≠ 0x62#8 ∨                                                              -- i, j, m
  (m = .mode32 ∧ b1.getLsbD 7 = false) ∨                                   -- k
  (m = .mode32 ∧ (b1.getLsbD 5 = false ∨ b1.getLsbD 4 = false)) ∨          -- l
  b1.extractLsb' 0 2 ≠ 0b10#2 ∨ b2.extractLsb' 0 2 ≠ 0b01#2 ∨
    (b4 ≠ 0x7A#8 ∧ b4 ≠ 0x7B#8 ∧ b4 ≠ 0x7C#8)                                    -- m

/-- A run of `n` steps from `s` that reaches `t`: every step answers a next state (R112). -/
def StepsTo : Nat → State → State → Prop
  | 0, s, t => s = t
  | n + 1, s, t => ∃ u, step s = .next u ∧ StepsTo n u t

/-- How a run ends (R112). -/
inductive RunEnd where
  /-- `pc = cfg.END` before a fetch, after this many steps, in this final state. -/
  | finished (steps : Nat) (final : State)
  /-- The first fault. -/
  | faulted (f : Fault)
  /-- The first refusal. -/
  | refused (r : Refusal)
  /-- Not within the given number of steps. -/
  | unfinished
  deriving DecidableEq, Repr

/-- A run of at most `fuel` steps, to `cfg.END` or to the first fault or refusal (R112). -/
def runToEnd : Nat → Nat → State → RunEnd
  | 0, n, s => if s.pc = s.cfg.endPc then .finished n s else .unfinished
  | fuel + 1, n, s =>
    if s.pc = s.cfg.endPc then .finished n s
    else
      match step s with
      | .next t => runToEnd fuel (n + 1) t
      | .fault f => .faulted f
      | .refused r => .refused r

end Sys2Proof.Machine
end

