-- ==== Sys2Proof/Laws/Broadcast.lean ====
section
/-! SUPPORT. The masked broadcast, bit by bit and element by element, and everything the shared
operation `broadcastGpr` can answer. -/

namespace Sys2Proof.Machine

theorem getLsbD_setElement {n : Nat} (v : ZmmWord) (j : Nat) (x : BitVec n) (b : Nat)
    (hb : b < 512) :
    (setElement v j x).getLsbD b =
      if j * n ≤ b ∧ b < j * n + n then x.getLsbD (b - j * n) else v.getLsbD b := by
  by_cases hlo : j * n ≤ b
  · by_cases hhi : b < j * n + n
    · have h1 : b - j * n < n := by omega
      simp [setElement, hb, hlo, hhi, h1, Nat.not_lt.mpr hlo]
    · have h1 : ¬ b - j * n < n := by omega
      have h2 : x.getLsbD (b - j * n) = false := BitVec.getLsbD_of_ge _ _ (by omega)
      simp [setElement, hb, hhi, h1, h2]
  · have h1 : b < j * n := by omega
    simp [setElement, hb, h1]

/-- The loop bit by bit: bit `b` belongs to element `b / n`, and bits past the last element are 0. -/
theorem getLsbD_broadcastLoop {n : Nat} (e : BitVec n) (mask : Option KWord) (z : Bool)
    (old : ZmmWord) (kl b : Nat) (hn : 0 < n) (hb : b < 512) :
    (broadcastLoop e mask z old kl).getLsbD b =
      (decide (b < kl * n) && (newElement e mask z old (b / n)).getLsbD (b % n)) := by
  induction kl with
  | zero => simp [broadcastLoop]
  | succ kl ih =>
    rw [broadcastLoop, getLsbD_setElement _ _ _ _ hb, ih]
    have hdm : n * (b / n) + b % n = b := Nat.div_add_mod b n
    have hmod : b % n < n := Nat.mod_lt b hn
    by_cases hlo : kl * n ≤ b
    · by_cases hhi : b < kl * n + n
      · have hd : b / n = kl := by
          rw [Nat.div_eq_iff hn]
          have : kl * n + n = (kl + 1) * n := by ring
          omega
        have hm : b % n = b - kl * n := by
          rw [hd, Nat.mul_comm] at hdm
          omega
        have hlt : b < (kl + 1) * n := by rw [Nat.add_mul]; omega
        simp [hlo, hhi, hd, hm, hlt]
      · have hge : ¬ b < (kl + 1) * n := by rw [Nat.add_mul]; omega
        have hge' : ¬ b < kl * n := by omega
        simp [hhi, hge, hge']
    · have hlt : b < kl * n := by omega
      have hlt' : b < (kl + 1) * n := by rw [Nat.add_mul]; omega
      simp [hlo, hlt, hlt']

/-- Element `j` of the loop's result. -/
theorem element_broadcastLoop {n : Nat} (e : BitVec n) (mask : Option KWord) (z : Bool)
    (old : ZmmWord) (kl j : Nat) (hn : 0 < n) (hj : j < kl) (hkl : kl * n ≤ 512) :
    (element (broadcastLoop e mask z old kl) j : BitVec n) = newElement e mask z old j := by
  have hle : (j + 1) * n ≤ kl * n := Nat.mul_le_mul_right n hj
  rw [Nat.add_mul] at hle
  refine BitVec.eq_of_getLsbD_eq fun i hi => ?_
  have hb : j * n + i < 512 := by omega
  have hd : (j * n + i) / n = j := by
    rw [Nat.div_eq_iff hn]
    have : j * n + n = (j + 1) * n := by ring
    omega
  have hm : (j * n + i) % n = i := by
    rw [Nat.mul_comm, Nat.mul_add_mod, Nat.mod_eq_of_lt hi]
  have hlt : j * n + i < kl * n := by omega
  rw [element, BitVec.getLsbD_extractLsb', getLsbD_broadcastLoop e mask z old kl _ hn hb, hd, hm]
  simp [hi, hlt]

/-- Bits from the last element up are 0. -/
theorem broadcastLoop_above {n : Nat} (e : BitVec n) (mask : Option KWord) (z : Bool)
    (old : ZmmWord) (kl b : Nat) (hn : 0 < n) (hb : kl * n ≤ b) :
    (broadcastLoop e mask z old kl).getLsbD b = false := by
  by_cases h : b < 512
  · rw [getLsbD_broadcastLoop e mask z old kl b hn h]
    simp [Nat.not_lt.mpr hb]
  · exact BitVec.getLsbD_of_ge _ _ (by omega)

/-- Every row's elements fill its vector length exactly. -/
theorem elementCount_mul_bits (ew : ElemWidth) (l : VecLen) :
    elementCount ew l * ew.bits = l.bits := by
  cases ew <;> cases l <;> rfl

theorem elemWidth_bits_pos (ew : ElemWidth) : 0 < ew.bits := by cases ew <;> decide

theorem elemWidth_bits_le (ew : ElemWidth) : ew.bits ≤ 512 := by cases ew <;> decide

theorem vecLen_bits_le (l : VecLen) : l.bits ≤ 512 := by cases l <;> decide

variable (ew : ElemWidth) (l : VecLen) (o : EvexOperands) (s : State)

/-- `newElement` over the writemask of the operands is the element the listings give. -/
theorem newElement_eq_listedElement (j : Nat) :
    newElement (sourceValue s ew o.src) (writemask s o.aaa) o.z (readZmm s o.dst) j =
      listedElement ew.bits o s j := by
  by_cases ha : o.aaa = 0#3
  · simp [newElement, listedElement, writemask, elementEnabled, ha, sourceValue]
  · cases hk : (readK s o.aaa).getLsbD j <;> cases hz : o.z <;>
      simp [newElement, listedElement, writemask, elementEnabled, ha, sourceValue, element, hk, hz]

/-- The register effect meets the result the rules give. -/
theorem broadcastEffect_result :
    BroadcastResult ew.bits (elementCount ew l) l.bits o s (broadcastEffect ew l o s) := by
  have hpos := elemWidth_bits_pos ew
  have hle := elemWidth_bits_le ew
  have hcount := elementCount_mul_bits ew l
  have hl := vecLen_bits_le l
  refine ⟨fun j hj => ?_, ?_, rfl, rfl, rfl, rfl, rfl, rfl, fun n hn => ?_, fun a => rfl⟩
  · have := element_broadcastLoop (sourceValue s ew o.src) (writemask s o.aaa) o.z
      (readZmm s o.dst) (elementCount ew l) j hpos hj (by omega)
    rw [newElement_eq_listedElement] at this
    simpa [broadcastEffect, broadcast, element] using this
  · refine BitVec.eq_of_getLsbD_eq fun i hi => ?_
    have := broadcastLoop_above (sourceValue s ew o.src) (writemask s o.aaa) o.z
      (readZmm s o.dst) (elementCount ew l) (l.bits + i) hpos (by omega)
    simp [broadcastEffect, broadcast, hi, this]
  · exact readZmm_writeZmm_other _ _ _ _ hn

variable {ew l o s}

theorem avx512Enabled_iff (c : Config) : avx512Enabled c = true ↔ Avx512StateEnabled c := by
  simp [avx512Enabled, Avx512StateEnabled, and_assoc]

/-- Everything `broadcastGpr` can answer, each answer with its condition. -/
theorem broadcastGpr_cases (need : List Feature) :
    (o.wellFormed s.cfg.mode ew = false ∧ broadcastGpr ew l need o s = .refused .notEncodable) ∨
    (o.wellFormed s.cfg.mode ew = true ∧
      (o.vvvv ≠ 0b1111#4 ∨ (∃ f ∈ need, hasFeature s.cfg f = false) ∨ ¬ Avx512StateEnabled s.cfg) ∧
      broadcastGpr ew l need o s = .fault (.ud s.pc)) ∨
    (o.wellFormed s.cfg.mode ew = true ∧
      ¬ (o.vvvv ≠ 0b1111#4 ∨ (∃ f ∈ need, hasFeature s.cfg f = false) ∨ ¬ Avx512StateEnabled s.cfg) ∧
      s.cfg.ts = true ∧ broadcastGpr ew l need o s = .fault (.nm s.pc)) ∨
    (o.wellFormed s.cfg.mode ew = true ∧
      ¬ (o.vvvv ≠ 0b1111#4 ∨ (∃ f ∈ need, hasFeature s.cfg f = false) ∨ ¬ Avx512StateEnabled s.cfg) ∧
      s.cfg.ts = false ∧ broadcastGpr ew l need o s = .next (broadcastEffect ew l o s)) := by
  rw [← avx512Enabled_iff]
  by_cases hwf : o.wellFormed s.cfg.mode ew = true
  · by_cases hv : o.vvvv = 0b1111#4
    · by_cases hf : featuresPresent s.cfg need = true
      · have hf' : ∀ f ∈ need, hasFeature s.cfg f = true := by
          simpa [featuresPresent] using hf
        cases he : avx512Enabled s.cfg <;> cases hts : s.cfg.ts <;>
          simp +contextual [broadcastGpr, formAdmitted, raise, hwf, hv, hf, he, hts, hf']
      · have hf' : ∃ f ∈ need, hasFeature s.cfg f = false := by
          simpa [featuresPresent] using hf
        simp [broadcastGpr, formAdmitted, raise, hwf, hv, hf, hf']
    · simp [broadcastGpr, formAdmitted, raise, hwf, hv]
  · simp [broadcastGpr, formAdmitted, hwf]

end Sys2Proof.Machine
end

