-- ==== Sys2Proof/Laws/Decode.lean ====
section
/-! SUPPORT. What the decoder answers, the fields of an encoded byte, and when bytes are settled. -/

namespace Sys2Proof

/-- The decoder answers an instruction exactly for six settled bytes, and leaves the bytes after. -/
theorem decode_ok_iff {m : Mode} {bs : List Byte} {i : Instr} {rest : List Byte} :
    decode m bs = .ok (i, rest) ↔
      ∃ b0 b1 b2 b3 b4 b5, bs = b0 :: b1 :: b2 :: b3 :: b4 :: b5 :: rest ∧
        unsettled m b0 b1 b2 b3 b4 b5 = none ∧
        i = mkInstr (elemWidthOf m b2 b4) (vecLenOf b3) (operandsOf m b1 b2 b3 b5) := by
  constructor
  · intro h
    unfold decode at h
    split at h
    · rename_i b0 b1 b2 b3 b4 b5 rest'
      split at h
      · cases h
      · rename_i hu
        cases h
        exact ⟨b0, b1, b2, b3, b4, b5, rfl, hu, rfl⟩
    · cases h
  · rintro ⟨b0, b1, b2, b3, b4, b5, rfl, hu, rfl⟩
    simp [decode, hu]

theorem unsettled_none_iff (m : Mode) (b0 b1 b2 b3 b4 b5 : Byte) :
    unsettled m b0 b1 b2 b3 b4 b5 = none ↔
      b0 = 0x62#8 ∧ p0Reason m b1 = none ∧ p1Reason b2 = none ∧ p2Reason m b3 = none ∧
        opcodeReason b2 b4 b5 = none := by
  by_cases h : b0 = 0x62#8 <;> simp [unsettled, h, Option.or_eq_none_iff]

@[simp] theorem mkInstr_ops (ew : ElemWidth) (l : VecLen) (o : EvexOperands) :
    (mkInstr ew l o).ops = o := by cases ew <;> cases l <;> rfl

@[simp] theorem mkInstr_width (ew : ElemWidth) (l : VecLen) (o : EvexOperands) :
    (mkInstr ew l o).width = ew := by cases ew <;> cases l <;> rfl

@[simp] theorem mkInstr_len (ew : ElemWidth) (l : VecLen) (o : EvexOperands) :
    (mkInstr ew l o).len = l := by cases ew <;> cases l <;> rfl

/-- An instruction is its row and its operands. -/
theorem mkInstr_eta (i : Instr) : mkInstr i.width i.len i.ops = i := by cases i <;> rfl

/-- The P0 byte of register numbers is settled, and gives them back with the ModRM byte. -/
theorem p0Reason_encode64 : ∀ dst src, p0Reason .mode64 (encodeP0 dst src) = none := by
  decide +kernel

theorem p0Reason_encode32 :
    ∀ dst src, dst.toNat < 8 → src.toNat < 8 → p0Reason .mode32 (encodeP0 dst src) = none := by
  decide +kernel

theorem dstOf_encode64 :
    ∀ dst src, dstOf .mode64 (encodeP0 dst src) (encodeModRM dst src) = dst := by
  decide +kernel

theorem dstOf_encode32 :
    ∀ dst src, dst.toNat < 8 → dstOf .mode32 (encodeP0 dst src) (encodeModRM dst src) = dst := by
  decide +kernel

theorem srcOf_encode64 :
    ∀ dst src, srcOf .mode64 (encodeP0 dst src) (encodeModRM dst src) = src := by
  decide +kernel

theorem srcOf_encode32 :
    ∀ dst src, src.toNat < 8 → srcOf .mode32 (encodeP0 dst src) (encodeModRM dst src) = src := by
  decide +kernel

/-- The P1 byte is settled and gives vvvv back. -/
theorem p1_encode (ew : ElemWidth) :
    ∀ v, p1Reason (encodeP1 ew v) = none ∧ (encodeP1 ew v).extractLsb' 3 4 = v ∧
      (encodeP1 ew v).getLsbD 7 = (ew == .qword) := by
  cases ew <;> decide +kernel

/-- The P2 byte is settled where zeroing has a mask, and gives its fields back. -/
theorem p2_encode (m : Mode) (l : VecLen) (z : Bool) :
    ∀ aaa, (!z || aaa != 0#3) = true →
      p2Reason m (encodeP2 l z aaa) = none ∧ vecLenOf (encodeP2 l z aaa) = l ∧
        (encodeP2 l z aaa).extractLsb' 0 3 = aaa ∧ (encodeP2 l z aaa).getLsbD 7 = z := by
  cases m <;> cases l <;> cases z <;> decide +kernel

/-- The ModRM byte of register numbers has mod = 11b. -/
theorem encodeModRM_mod : ∀ dst src, (encodeModRM dst src).extractLsb' 6 2 = 0b11#2 := by
  decide +kernel

/-- The width an instruction was encoded with is read back where the mode has it. -/
theorem elemWidthOf_encode (m : Mode) (ew : ElemWidth) (v : BitVec 4) (h : ew.encodable m = true) :
    elemWidthOf m (encodeP1 ew v) ew.opcode = ew := by
  have hw := (p1_encode ew v).2.2
  cases m <;> cases ew <;> simp_all [elemWidthOf, ElemWidth.opcode, ElemWidth.encodable]

/-- The opcode and ModRM bytes of an instruction are settled with its W bit. -/
theorem opcodeReason_encode (ew : ElemWidth) (v : BitVec 4) (dst : BitVec 5) (src : BitVec 4) :
    opcodeReason (encodeP1 ew v) ew.opcode (encodeModRM dst src) = none := by
  have hw := (p1_encode ew v).2.2
  have hm := encodeModRM_mod dst src
  cases ew <;> simp_all [opcodeReason, ElemWidth.opcode]

/-- Bytes that are not settled are refused. -/
theorem decode_error_of_unsettled {m : Mode} {b0 b1 b2 b3 b4 b5 : Byte} {rest : List Byte}
    (h : unsettled m b0 b1 b2 b3 b4 b5 ≠ none) :
    ∃ u, decode m (b0 :: b1 :: b2 :: b3 :: b4 :: b5 :: rest) = .error u := by
  cases hu : unsettled m b0 b1 b2 b3 b4 b5 with
  | none => exact absurd hu h
  | some u => exact ⟨u, by simp [decode, hu]⟩

/-- The opcode and ModRM bytes are settled for the three opcodes, mod = 11b, and W = 1 on 7Ch only. -/
theorem opcodeReason_none_iff (b2 b4 b5 : Byte) :
    opcodeReason b2 b4 b5 = none ↔
      (b4 = 0x7A#8 ∨ b4 = 0x7B#8 ∨ b4 = 0x7C#8) ∧ b5.extractLsb' 6 2 = 0b11#2 ∧
        (b4 ≠ 0x7C#8 → b2.getLsbD 7 = false) := by
  constructor
  · intro h
    unfold opcodeReason at h
    split at h
    · cases h
    · split at h
      · cases h
      · split at h
        · cases h
        · exact ⟨by tauto, by tauto, by simp_all⟩
  · rintro ⟨h, h5, hw⟩
    rcases h with rfl | rfl | rfl <;> simp_all [opcodeReason]

/-- The three parts of an assembled destination number. -/
theorem dst_parts : ∀ (x y : BitVec 1) (r : BitVec 3),
    (x ++ y ++ r : BitVec 5).extractLsb' 4 1 = x ∧ (x ++ y ++ r : BitVec 5).extractLsb' 3 1 = y ∧
      (x ++ y ++ r : BitVec 5).extractLsb' 0 3 = r := by
  decide +kernel

/-- The two parts of an assembled source number. -/
theorem src_parts : ∀ (x : BitVec 1) (r : BitVec 3),
    (x ++ r : BitVec 4).extractLsb' 3 1 = x ∧ (x ++ r : BitVec 4).extractLsb' 0 3 = r := by
  decide +kernel

/-- A settled P0 byte is the encoding of the register numbers read from it. -/
theorem encodeP0_decoded64 (b1 b5 : Byte) (h : p0Reason .mode64 b1 = none) :
    encodeP0 (dstOf .mode64 b1 b5) (srcOf .mode64 b1 b5) = b1 := by
  have hb : ∀ b1 : Byte, p0Reason .mode64 b1 = none →
      ((~~~ ~~~ b1.extractLsb' 7 1) ++ 1#1 ++ (~~~ ~~~ b1.extractLsb' 5 1) ++
        (~~~ ~~~ b1.extractLsb' 4 1) ++ 0b0010#4 : Byte) = b1 := by
    decide +kernel
  simp only [encodeP0, dstOf, srcOf, dst_parts, src_parts]
  exact hb b1 h

theorem encodeP0_decoded32 (b1 b5 : Byte) (h : p0Reason .mode32 b1 = none) :
    encodeP0 (dstOf .mode32 b1 b5) (srcOf .mode32 b1 b5) = b1 := by
  have hb : ∀ b1 : Byte, p0Reason .mode32 b1 = none → 0xF2#8 = b1 := by decide +kernel
  have hr : ∀ r r' : BitVec 3, encodeP0 (0#2 ++ r) (0#1 ++ r') = 0xF2#8 := by decide +kernel
  rw [dstOf, srcOf, hr]
  exact hb b1 h

/-- A ModRM byte with mod = 11b is the encoding of the register numbers read from it. -/
theorem encodeModRM_decoded (m : Mode) (b1 b5 : Byte) (h : b5.extractLsb' 6 2 = 0b11#2) :
    encodeModRM (dstOf m b1 b5) (srcOf m b1 b5) = b5 := by
  have hb : ∀ b5 : Byte, b5.extractLsb' 6 2 = 0b11#2 →
      (0b11#2 ++ b5.extractLsb' 3 3 ++ b5.extractLsb' 0 3 : Byte) = b5 := by
    decide +kernel
  have hd : ∀ r : BitVec 3, (0#2 ++ r : BitVec 5).extractLsb' 0 3 = r := by decide +kernel
  cases m
  · simp only [encodeModRM, dstOf, srcOf, dst_parts, src_parts]
    exact hb b5 h
  · simp only [encodeModRM, dstOf, srcOf, hd, src_parts]
    exact hb b5 h

/-- In Mode32 the register numbers are below 8. -/
theorem registers_lt_mode32 (b1 b5 : Byte) :
    (dstOf .mode32 b1 b5).toNat < 8 ∧ (srcOf .mode32 b1 b5).toNat < 8 := by
  have hd : ∀ r : BitVec 3, (0#2 ++ r : BitVec 5).toNat < 8 := by decide +kernel
  have hs : ∀ r : BitVec 3, (0#1 ++ r : BitVec 4).toNat < 8 := by decide +kernel
  exact ⟨hd _, hs _⟩

/-- A settled P1 byte is the encoding of its vvvv with its W bit. -/
theorem encodeP1_decoded (ew : ElemWidth) :
    ∀ b2 : Byte, p1Reason b2 = none → ew.evexW = b2.extractLsb' 7 1 →
      encodeP1 ew (b2.extractLsb' 3 4) = b2 := by
  cases ew <;> decide +kernel

/-- A settled P2 byte is the encoding of its fields, and zeroing has a mask there. -/
theorem encodeP2_decoded (m : Mode) :
    ∀ b3 : Byte, p2Reason m b3 = none →
      encodeP2 (vecLenOf b3) (b3.getLsbD 7) (b3.extractLsb' 0 3) = b3 ∧
        (!b3.getLsbD 7 || b3.extractLsb' 0 3 != 0#3) = true := by
  cases m <;> decide +kernel

/-- A table word is always laid out as six bytes. -/
theorem tableBytes_length (nbits w : Nat) : (tableBytes nbits w).length = 6 := by
  simp only [tableBytes]
  split <;> simp [bytesLowFirst]

end Sys2Proof
end

