-- ==== Sys2Proof/Laws/PerInstr.lean ====
section
/-! SUPPORT. Facts about every instruction as syntax, one lemma per constructor: the shape of its
encoding (30_encoding.md R40, R45) and its element count (R50). -/

namespace Sys2Proof.Laws

/-- Six bytes, the escape byte first, a register-naming ModRM byte last (R40, R45). -/
def EncodeShape.Statement (i : Instr) : Prop :=
  (encode i).length = 6 ∧ (encode i)[0]? = some 0x62#8 ∧ (encode i)[4]? = some i.width.opcode ∧
    ∃ b, (encode i)[5]? = some b ∧ b.extractLsb' 6 2 = 0b11#2

theorem EncodeShape.of_encode (i : Instr) : EncodeShape.Statement i :=
  ⟨rfl, rfl, rfl, _, rfl, encodeModRM_mod i.ops.dst i.ops.src⟩

theorem EncodeShape.vpbroadcastbXmm (o : EvexOperands) :
    EncodeShape.Statement (.vpbroadcastbXmm o) := EncodeShape.of_encode _
theorem EncodeShape.vpbroadcastbYmm (o : EvexOperands) :
    EncodeShape.Statement (.vpbroadcastbYmm o) := EncodeShape.of_encode _
theorem EncodeShape.vpbroadcastbZmm (o : EvexOperands) :
    EncodeShape.Statement (.vpbroadcastbZmm o) := EncodeShape.of_encode _
theorem EncodeShape.vpbroadcastwXmm (o : EvexOperands) :
    EncodeShape.Statement (.vpbroadcastwXmm o) := EncodeShape.of_encode _
theorem EncodeShape.vpbroadcastwYmm (o : EvexOperands) :
    EncodeShape.Statement (.vpbroadcastwYmm o) := EncodeShape.of_encode _
theorem EncodeShape.vpbroadcastwZmm (o : EvexOperands) :
    EncodeShape.Statement (.vpbroadcastwZmm o) := EncodeShape.of_encode _
theorem EncodeShape.vpbroadcastdXmm (o : EvexOperands) :
    EncodeShape.Statement (.vpbroadcastdXmm o) := EncodeShape.of_encode _
theorem EncodeShape.vpbroadcastdYmm (o : EvexOperands) :
    EncodeShape.Statement (.vpbroadcastdYmm o) := EncodeShape.of_encode _
theorem EncodeShape.vpbroadcastdZmm (o : EvexOperands) :
    EncodeShape.Statement (.vpbroadcastdZmm o) := EncodeShape.of_encode _
theorem EncodeShape.vpbroadcastqXmm (o : EvexOperands) :
    EncodeShape.Statement (.vpbroadcastqXmm o) := EncodeShape.of_encode _
theorem EncodeShape.vpbroadcastqYmm (o : EvexOperands) :
    EncodeShape.Statement (.vpbroadcastqYmm o) := EncodeShape.of_encode _
theorem EncodeShape.vpbroadcastqZmm (o : EvexOperands) :
    EncodeShape.Statement (.vpbroadcastqZmm o) := EncodeShape.of_encode _

/-- The elements fill the vector length, and a 64-bit opmask has a bit for each of them (R15, R50). -/
def ElementCount.Statement (i : Instr) : Prop :=
  Machine.elementCount i.width i.len * i.width.bits = i.len.bits ∧
    Machine.elementCount i.width i.len ≤ 64

theorem ElementCount.of_row (i : Instr) : ElementCount.Statement i :=
  ⟨Machine.elementCount_mul_bits _ _, by cases i.width <;> cases i.len <;> decide⟩

theorem ElementCount.vpbroadcastbXmm (o : EvexOperands) :
    ElementCount.Statement (.vpbroadcastbXmm o) := ElementCount.of_row _
theorem ElementCount.vpbroadcastbYmm (o : EvexOperands) :
    ElementCount.Statement (.vpbroadcastbYmm o) := ElementCount.of_row _
theorem ElementCount.vpbroadcastbZmm (o : EvexOperands) :
    ElementCount.Statement (.vpbroadcastbZmm o) := ElementCount.of_row _
theorem ElementCount.vpbroadcastwXmm (o : EvexOperands) :
    ElementCount.Statement (.vpbroadcastwXmm o) := ElementCount.of_row _
theorem ElementCount.vpbroadcastwYmm (o : EvexOperands) :
    ElementCount.Statement (.vpbroadcastwYmm o) := ElementCount.of_row _
theorem ElementCount.vpbroadcastwZmm (o : EvexOperands) :
    ElementCount.Statement (.vpbroadcastwZmm o) := ElementCount.of_row _
theorem ElementCount.vpbroadcastdXmm (o : EvexOperands) :
    ElementCount.Statement (.vpbroadcastdXmm o) := ElementCount.of_row _
theorem ElementCount.vpbroadcastdYmm (o : EvexOperands) :
    ElementCount.Statement (.vpbroadcastdYmm o) := ElementCount.of_row _
theorem ElementCount.vpbroadcastdZmm (o : EvexOperands) :
    ElementCount.Statement (.vpbroadcastdZmm o) := ElementCount.of_row _
theorem ElementCount.vpbroadcastqXmm (o : EvexOperands) :
    ElementCount.Statement (.vpbroadcastqXmm o) := ElementCount.of_row _
theorem ElementCount.vpbroadcastqYmm (o : EvexOperands) :
    ElementCount.Statement (.vpbroadcastqYmm o) := ElementCount.of_row _
theorem ElementCount.vpbroadcastqZmm (o : EvexOperands) :
    ElementCount.Statement (.vpbroadcastqZmm o) := ElementCount.of_row _

end Sys2Proof.Laws
end

