-- ==== Sys2Proof/Laws/Step.lean ====
section
/-! SUPPORT. `exec` as the shared operation of its row, and everything `exec`, the fetch and the step
can answer. -/

namespace Sys2Proof.Machine

/-- Each arm is the shared operation at its row's element width, vector length and CPUID cell. -/
theorem exec_eq (i : Instr) (s : State) :
    exec i s = broadcastGpr i.width i.len (rowFeatures i.width i.len) i.ops s := by
  cases i <;> rfl

/-- Everything an instruction can answer, each answer with its condition. -/
theorem exec_cases (i : Instr) (s : State) :
    (¬ WellFormed s.cfg.mode i ∧ exec i s = .refused .notEncodable) ∨
    (WellFormed s.cfg.mode i ∧ UdCondition i s ∧ exec i s = .fault (.ud s.pc)) ∨
    (WellFormed s.cfg.mode i ∧ ¬ UdCondition i s ∧ s.cfg.ts = true ∧
      exec i s = .fault (.nm s.pc)) ∨
    (WellFormed s.cfg.mode i ∧ ¬ UdCondition i s ∧ s.cfg.ts = false ∧
      exec i s = .next (broadcastEffect i.width i.len i.ops s)) := by
  rw [exec_eq]
  simpa [WellFormed, Instr.wellFormed, UdCondition] using
    broadcastGpr_cases (ew := i.width) (l := i.len) (o := i.ops) (s := s) (rowFeatures i.width i.len)

/-- An instruction that answers a next state was encodable and met no exception condition, and the
next state is its register effect. -/
theorem exec_next {i : Instr} {s t : State} (h : exec i s = .next t) :
    WellFormed s.cfg.mode i ∧ ¬ UdCondition i s ∧ s.cfg.ts = false ∧
      t = broadcastEffect i.width i.len i.ops s := by
  obtain ⟨-, h'⟩ | ⟨-, -, h'⟩ | ⟨-, -, -, h'⟩ | ⟨hw, hu, hts, h'⟩ := exec_cases i s
  · rw [h'] at h; cases h
  · rw [h'] at h; cases h
  · rw [h'] at h; cases h
  · rw [h'] at h
    exact ⟨hw, hu, hts, (Host.Outcome.next.inj h).symm⟩

/-- A fetch answers six bytes, read one by one at `pc`. -/
theorem fetch_ok {s : State} {bs : List Byte} (h : fetch s = .ok bs) :
    s.pc.toNat + 5 < 2 ^ s.cfg.mode.pcBits ∧ readBytes s.mem s.pc.toNat 6 = .ok bs := by
  unfold fetch at h
  split at h
  · cases h
  · rename_i hlt
    split at h
    · cases h
    · rename_i bs' hbs
      cases h
      exact ⟨by omega, hbs⟩

/-- Six bytes at `pc` are what the fetch answers. -/
theorem fetch_codeAt {s : State} {b0 b1 b2 b3 b4 b5 : Byte} (h : CodeAt s b0 b1 b2 b3 b4 b5) :
    fetch s = .ok [b0, b1, b2, b3, b4, b5] := by
  obtain ⟨hlt, h0, h1, h2, h3, h4, h5⟩ := h
  simp [fetch, Nat.not_le.mpr hlt, readBytes_six h0 h1 h2 h3 h4 h5]

/-- A step that answers a next state fetched six bytes, decoded them, and ran the instruction. -/
theorem step_next {s t : State} (h : step s = .next t) :
    ∃ bs i rest, fetch s = .ok bs ∧ decode s.cfg.mode bs = .ok (i, rest) ∧ exec i s = .next t := by
  unfold step at h
  split at h
  · cases h
  · rename_i bs hbs
    split at h
    · cases h
    · rename_i i rest hdec
      exact ⟨bs, i, rest, hbs, hdec, h⟩

end Sys2Proof.Machine
end

