-- ==== Sys2Proof/Certificates/Slice0/Obligations.lean ====
section
/-! DEFINITION. The statements for the provers. Each docstring names the rule of spec/ it formalises;
where a statement rests on a choice of the model, it names the log entry. -/

open Sys2Proof Sys2Proof.Machine

/-- R70: VPBROADCASTB xmm, well formed, with vvvv = 1111b, its CPUID flags 1, AVX-512 state
enabled and CR0.TS = 0, completes; 16 elements of 8 bits are written by the listing. -/
def Obligations.VpbroadcastbXmmCompletes : Prop :=
  ∀ (o : EvexOperands) (s : State), WellFormed s.cfg.mode (.vpbroadcastbXmm o) →
    o.vvvv = 0b1111#4 → s.cfg.avx512vl = true → s.cfg.avx512bw = true →
    Avx512StateEnabled s.cfg → s.cfg.ts = false →
    ∃ t, exec (.vpbroadcastbXmm o) s = .next t ∧ BroadcastResult 8 16 128 o s t

/-- R71: VPBROADCASTB ymm, well formed, with vvvv = 1111b, its CPUID flags 1, AVX-512 state
enabled and CR0.TS = 0, completes; 32 elements of 8 bits are written by the listing. -/
def Obligations.VpbroadcastbYmmCompletes : Prop :=
  ∀ (o : EvexOperands) (s : State), WellFormed s.cfg.mode (.vpbroadcastbYmm o) →
    o.vvvv = 0b1111#4 → s.cfg.avx512vl = true → s.cfg.avx512bw = true →
    Avx512StateEnabled s.cfg → s.cfg.ts = false →
    ∃ t, exec (.vpbroadcastbYmm o) s = .next t ∧ BroadcastResult 8 32 256 o s t

/-- R72: VPBROADCASTB zmm, well formed, with vvvv = 1111b, its CPUID flags 1, AVX-512 state
enabled and CR0.TS = 0, completes; 64 elements of 8 bits are written by the listing. -/
def Obligations.VpbroadcastbZmmCompletes : Prop :=
  ∀ (o : EvexOperands) (s : State), WellFormed s.cfg.mode (.vpbroadcastbZmm o) →
    o.vvvv = 0b1111#4 → s.cfg.avx512bw = true →
    Avx512StateEnabled s.cfg → s.cfg.ts = false →
    ∃ t, exec (.vpbroadcastbZmm o) s = .next t ∧ BroadcastResult 8 64 512 o s t

/-- R73: VPBROADCASTW xmm, well formed, with vvvv = 1111b, its CPUID flags 1, AVX-512 state
enabled and CR0.TS = 0, completes; 8 elements of 16 bits are written by the listing. -/
def Obligations.VpbroadcastwXmmCompletes : Prop :=
  ∀ (o : EvexOperands) (s : State), WellFormed s.cfg.mode (.vpbroadcastwXmm o) →
    o.vvvv = 0b1111#4 → s.cfg.avx512vl = true → s.cfg.avx512bw = true →
    Avx512StateEnabled s.cfg → s.cfg.ts = false →
    ∃ t, exec (.vpbroadcastwXmm o) s = .next t ∧ BroadcastResult 16 8 128 o s t

/-- R74: VPBROADCASTW ymm, well formed, with vvvv = 1111b, its CPUID flags 1, AVX-512 state
enabled and CR0.TS = 0, completes; 16 elements of 16 bits are written by the listing. -/
def Obligations.VpbroadcastwYmmCompletes : Prop :=
  ∀ (o : EvexOperands) (s : State), WellFormed s.cfg.mode (.vpbroadcastwYmm o) →
    o.vvvv = 0b1111#4 → s.cfg.avx512vl = true → s.cfg.avx512bw = true →
    Avx512StateEnabled s.cfg → s.cfg.ts = false →
    ∃ t, exec (.vpbroadcastwYmm o) s = .next t ∧ BroadcastResult 16 16 256 o s t

/-- R75: VPBROADCASTW zmm, well formed, with vvvv = 1111b, its CPUID flags 1, AVX-512 state
enabled and CR0.TS = 0, completes; 32 elements of 16 bits are written by the listing. -/
def Obligations.VpbroadcastwZmmCompletes : Prop :=
  ∀ (o : EvexOperands) (s : State), WellFormed s.cfg.mode (.vpbroadcastwZmm o) →
    o.vvvv = 0b1111#4 → s.cfg.avx512bw = true →
    Avx512StateEnabled s.cfg → s.cfg.ts = false →
    ∃ t, exec (.vpbroadcastwZmm o) s = .next t ∧ BroadcastResult 16 32 512 o s t

/-- R76: VPBROADCASTD xmm, well formed, with vvvv = 1111b, its CPUID flags 1, AVX-512 state
enabled and CR0.TS = 0, completes; 4 elements of 32 bits are written by the listing. -/
def Obligations.VpbroadcastdXmmCompletes : Prop :=
  ∀ (o : EvexOperands) (s : State), WellFormed s.cfg.mode (.vpbroadcastdXmm o) →
    o.vvvv = 0b1111#4 → s.cfg.avx512vl = true → s.cfg.avx512f = true →
    Avx512StateEnabled s.cfg → s.cfg.ts = false →
    ∃ t, exec (.vpbroadcastdXmm o) s = .next t ∧ BroadcastResult 32 4 128 o s t

/-- R77: VPBROADCASTD ymm, well formed, with vvvv = 1111b, its CPUID flags 1, AVX-512 state
enabled and CR0.TS = 0, completes; 8 elements of 32 bits are written by the listing. -/
def Obligations.VpbroadcastdYmmCompletes : Prop :=
  ∀ (o : EvexOperands) (s : State), WellFormed s.cfg.mode (.vpbroadcastdYmm o) →
    o.vvvv = 0b1111#4 → s.cfg.avx512vl = true → s.cfg.avx512f = true →
    Avx512StateEnabled s.cfg → s.cfg.ts = false →
    ∃ t, exec (.vpbroadcastdYmm o) s = .next t ∧ BroadcastResult 32 8 256 o s t

/-- R78: VPBROADCASTD zmm, well formed, with vvvv = 1111b, its CPUID flags 1, AVX-512 state
enabled and CR0.TS = 0, completes; 16 elements of 32 bits are written by the listing. -/
def Obligations.VpbroadcastdZmmCompletes : Prop :=
  ∀ (o : EvexOperands) (s : State), WellFormed s.cfg.mode (.vpbroadcastdZmm o) →
    o.vvvv = 0b1111#4 → s.cfg.avx512f = true →
    Avx512StateEnabled s.cfg → s.cfg.ts = false →
    ∃ t, exec (.vpbroadcastdZmm o) s = .next t ∧ BroadcastResult 32 16 512 o s t

/-- R79: VPBROADCASTQ xmm, well formed (Mode64 only: no well-formed instruction of this row exists in Mode32), with vvvv = 1111b, its CPUID flags 1, AVX-512 state
enabled and CR0.TS = 0, completes; 2 elements of 64 bits are written by the listing. -/
def Obligations.VpbroadcastqXmmCompletes : Prop :=
  ∀ (o : EvexOperands) (s : State), WellFormed s.cfg.mode (.vpbroadcastqXmm o) →
    o.vvvv = 0b1111#4 → s.cfg.avx512vl = true → s.cfg.avx512f = true →
    Avx512StateEnabled s.cfg → s.cfg.ts = false →
    ∃ t, exec (.vpbroadcastqXmm o) s = .next t ∧ BroadcastResult 64 2 128 o s t

/-- R80: VPBROADCASTQ ymm, well formed (Mode64 only: no well-formed instruction of this row exists in Mode32), with vvvv = 1111b, its CPUID flags 1, AVX-512 state
enabled and CR0.TS = 0, completes; 4 elements of 64 bits are written by the listing. -/
def Obligations.VpbroadcastqYmmCompletes : Prop :=
  ∀ (o : EvexOperands) (s : State), WellFormed s.cfg.mode (.vpbroadcastqYmm o) →
    o.vvvv = 0b1111#4 → s.cfg.avx512vl = true → s.cfg.avx512f = true →
    Avx512StateEnabled s.cfg → s.cfg.ts = false →
    ∃ t, exec (.vpbroadcastqYmm o) s = .next t ∧ BroadcastResult 64 4 256 o s t

/-- R81: VPBROADCASTQ zmm, well formed (Mode64 only: no well-formed instruction of this row exists in Mode32), with vvvv = 1111b, its CPUID flags 1, AVX-512 state
enabled and CR0.TS = 0, completes; 8 elements of 64 bits are written by the listing. -/
def Obligations.VpbroadcastqZmmCompletes : Prop :=
  ∀ (o : EvexOperands) (s : State), WellFormed s.cfg.mode (.vpbroadcastqZmm o) →
    o.vvvv = 0b1111#4 → s.cfg.avx512f = true →
    Avx512StateEnabled s.cfg → s.cfg.ts = false →
    ∃ t, exec (.vpbroadcastqZmm o) s = .next t ∧ BroadcastResult 64 8 512 o s t

/-- Encoding: every well-formed instruction, every operand at every value, is decoded from its own
bytes, whatever bytes follow (R44 to R49, R58). -/
def Obligations.DecodeEncodeRoundTrip : Prop :=
  ∀ (m : Mode) (i : Instr) (rest : List Byte), WellFormed m i →
    decode m (encode i ++ rest) = .ok (i, rest)

/-- In Mode64 the bytes an instruction is decoded from are its encoding: each instruction has one
(R44, R58). -/
def Obligations.DecodeIsCanonicalInMode64 : Prop :=
  ∀ (bs : List Byte) (i : Instr) (rest : List Byte), decode .mode64 bs = .ok (i, rest) →
    bs = encode i ++ rest

/-- In Mode32 the bytes an instruction is decoded from are its encoding, or, for VPBROADCASTD, its
encoding with W = 1 (R44, R52). -/
def Obligations.DecodeInMode32FreesOnlyW : Prop :=
  ∀ (bs : List Byte) (i : Instr) (rest : List Byte), decode .mode32 bs = .ok (i, rest) →
    bs = encode i ++ rest ∨
      (i.width = .dword ∧
        bs = (encode i).set 2 (encodeP1 .dword i.ops.vvvv ||| 0x80#8) ++ rest)

/-- What is decoded is well formed in the mode, and is six bytes long (R40; R46, R47, R52 and R54 d
for the three checks). -/
def Obligations.DecodedIsWellFormedAndSixBytes : Prop :=
  ∀ (m : Mode) (bs : List Byte) (i : Instr) (rest : List Byte), decode m bs = .ok (i, rest) →
    WellFormed m i ∧ bs.length = rest.length + 6

/-- R58's decoder accepts six bytes as a row exactly where the opcode table's mask and match for the
mode do, and z = 1 is not without a writemask (R44, R54 d). -/
def Obligations.DecodeAgreesWithOpcodeTable : Prop :=
  ∀ (m : Mode) (b0 b1 b2 b3 b4 b5 : Byte) (ew : ElemWidth) (l : VecLen),
    (∃ i, decode m [b0, b1, b2, b3, b4, b5] = .ok (i, []) ∧ i.width = ew ∧ i.len = l) ↔
      (∃ r ∈ tableRows m, r.width = ew ∧ r.len = l ∧
        r.matchesBytes [b0, b1, b2, b3, b4, b5] = true) ∧
      ¬ (b3.getLsbD 7 = true ∧ b3.extractLsb' 0 3 = 0b000#3)

/-- The operand fields of decoded bytes: register numbers assembled as R46 and R47 say, aaa, z and vvvv
as R48, R49 and R53 place them. -/
def Obligations.OperandFieldsAreAssembled : Prop :=
  ∀ (m : Mode) (b0 b1 b2 b3 b4 b5 : Byte) (i : Instr) (rest rest' : List Byte),
    decode m (b0 :: b1 :: b2 :: b3 :: b4 :: b5 :: rest) = .ok (i, rest') →
    (m = .mode64 → i.ops.dst.toNat =
      16 * (1 - (b1.extractLsb' 4 1).toNat) + 8 * (1 - (b1.extractLsb' 7 1).toNat) +
        (b5.extractLsb' 3 3).toNat) ∧
    (m = .mode32 → i.ops.dst.toNat = (b5.extractLsb' 3 3).toNat) ∧
    (m = .mode64 → i.ops.src.toNat =
      8 * (1 - (b1.extractLsb' 5 1).toNat) + (b5.extractLsb' 0 3).toNat) ∧
    (m = .mode32 → i.ops.src.toNat = (b5.extractLsb' 0 3).toNat) ∧
    i.ops.aaa = b3.extractLsb' 0 3 ∧ i.ops.z = b3.getLsbD 7 ∧ i.ops.vvvv = b2.extractLsb' 3 4

/-- R50: L'L gives the vector length, 11b is no row, and KL is VL over the element width. -/
def Obligations.VectorLengthFieldIsRead : Prop :=
  ∀ (m : Mode) (b0 b1 b2 b3 b4 b5 : Byte) (rest : List Byte),
    (b3.extractLsb' 5 2 = 0b11#2 →
      ∃ u, decode m (b0 :: b1 :: b2 :: b3 :: b4 :: b5 :: rest) = .error u) ∧
    ∀ (i : Instr) (rest' : List Byte),
      decode m (b0 :: b1 :: b2 :: b3 :: b4 :: b5 :: rest) = .ok (i, rest') →
      (b3.extractLsb' 5 2 = 0b00#2 → i.len.bits = 128) ∧
      (b3.extractLsb' 5 2 = 0b01#2 → i.len.bits = 256) ∧
      (b3.extractLsb' 5 2 = 0b10#2 → i.len.bits = 512) ∧
      (i.width = .byte → elementCount i.width i.len = i.len.bits / 8) ∧
      (i.width = .word → elementCount i.width i.len = i.len.bits / 16) ∧
      (i.width = .dword → elementCount i.width i.len = i.len.bits / 32) ∧
      (i.width = .qword → elementCount i.width i.len = i.len.bits / 64)

/-- R51: in Mode64, with opcode 7Ch, W = 0 selects the form with 32-bit elements and W = 1 the form with
64-bit elements, everything else the same; with opcodes 7Ah and 7Bh only W = 0 is an instruction, and
W = 1 is refused. -/
def Obligations.WSelectsTheRowInMode64 : Prop :=
  (∀ (b0 b1 b2 b3 b5 : Byte) (rest : List Byte) (l : VecLen) (o : EvexOperands),
    decode .mode64 (b0 :: b1 :: (b2 &&& 0x7F#8) :: b3 :: 0x7C#8 :: b5 :: rest) =
        .ok (mkInstr .dword l o, rest) ↔
      decode .mode64 (b0 :: b1 :: (b2 ||| 0x80#8) :: b3 :: 0x7C#8 :: b5 :: rest) =
        .ok (mkInstr .qword l o, rest)) ∧
  (∀ (b0 b1 b2 b3 b4 b5 : Byte) (rest rest' : List Byte) (i : Instr),
    decode .mode64 (b0 :: b1 :: b2 :: b3 :: b4 :: b5 :: rest) = .ok (i, rest') →
      (b4 = 0x7A#8 → i.width = .byte ∧ b2.getLsbD 7 = false) ∧
      (b4 = 0x7B#8 → i.width = .word ∧ b2.getLsbD 7 = false) ∧
      (b4 = 0x7C#8 → i.width = if b2.getLsbD 7 then .qword else .dword)) ∧
  ∀ (b0 b1 b2 b3 b4 b5 : Byte) (rest : List Byte), b4 = 0x7A#8 ∨ b4 = 0x7B#8 →
    b2.getLsbD 7 = true →
    ∃ u, decode .mode64 (b0 :: b1 :: b2 :: b3 :: b4 :: b5 :: rest) = .error u

/-- R52: in Mode32, with opcode 7Ch, W is ignored and the bytes are VPBROADCASTD; no bytes mean
VPBROADCASTQ there; with opcodes 7Ah and 7Bh, W = 1 is refused in both modes. -/
def Obligations.WIsIgnoredInMode32 : Prop :=
  (∀ (b0 b1 b2 b3 b5 : Byte) (rest : List Byte),
    decode .mode32 (b0 :: b1 :: (b2 ||| 0x80#8) :: b3 :: 0x7C#8 :: b5 :: rest) =
      decode .mode32 (b0 :: b1 :: (b2 &&& 0x7F#8) :: b3 :: 0x7C#8 :: b5 :: rest)) ∧
  (∀ (b0 b1 b2 b3 b5 : Byte) (rest rest' : List Byte) (i : Instr),
    decode .mode32 (b0 :: b1 :: b2 :: b3 :: 0x7C#8 :: b5 :: rest) = .ok (i, rest') →
      i.width = .dword ∧ i.len = vecLenOf b3) ∧
  (∀ (bs rest : List Byte) (i : Instr), decode .mode32 bs = .ok (i, rest) → i.width ≠ .qword) ∧
  ∀ (m : Mode) (b0 b1 b2 b3 b4 b5 : Byte) (rest : List Byte), b4 = 0x7A#8 ∨ b4 = 0x7B#8 →
    b2.getLsbD 7 = true →
    ∃ u, decode m (b0 :: b1 :: b2 :: b3 :: b4 :: b5 :: rest) = .error u

/-- R82: in Mode32, bytes that match a VPBROADCASTQ row of the Mode64 table and have stored R, X, B and
R' all 1 run as the VPBROADCASTD instruction of the same length, with registers 0 to 7. -/
def Obligations.QuadwordBytesRunAsDwordInMode32 : Prop :=
  ∀ (s : State) (b0 b1 b2 b3 b4 b5 : Byte) (l : VecLen), s.cfg.mode = .mode32 →
    CodeAt s b0 b1 b2 b3 b4 b5 → b1.extractLsb' 4 4 = 0b1111#4 →
    (∃ r ∈ tableRows64, r.width = .qword ∧ r.len = l ∧
      r.matchesBytes [b0, b1, b2, b3, b4, b5] = true) →
    ¬ (b3.getLsbD 7 = true ∧ b3.extractLsb' 0 3 = 0b000#3) →
    step s = exec (mkInstr .dword l
      { vvvv := b2.extractLsb' 3 4, dst := 0#2 ++ b5.extractLsb' 3 3,
        src := 0#1 ++ b5.extractLsb' 0 3, aaa := b3.extractLsb' 0 3, z := b3.getLsbD 7 }) s

/-- R53: bytes that match a row in every fixed bit but have vvvv other than 1111b raise #UD, for every
row, in both modes, with or without a writemask. -/
def Obligations.ReservedVvvvRaisesUd : Prop :=
  ∀ (s : State) (b0 b1 b2 b3 b4 b5 : Byte), CodeAt s b0 b1 b2 b3 b4 b5 →
    (∃ r ∈ tableRows s.cfg.mode, r.matchesBytes [b0, b1, b2, b3, b4, b5] = true) →
    ¬ (b3.getLsbD 7 = true ∧ b3.extractLsb' 0 3 = 0b000#3) →
    b2.extractLsb' 3 4 ≠ 0b1111#4 →
    step s = .fault (.ud s.pc)

/-- R54: six bytes with any of the variations a to m, together or with any vvvv, are refused, and no
other six bytes are refused as an encoding. -/
def Obligations.UnsettledEncodingsAreRefused : Prop :=
  ∀ (s : State) (b0 b1 b2 b3 b4 b5 : Byte), CodeAt s b0 b1 b2 b3 b4 b5 →
    (Variation s.cfg.mode b0 b1 b2 b3 b4 b5 ↔
      ∃ u, step s = .refused (.unsettledEncoding u))

/-- R93: a CPUID flag of the row at 0, or AVX-512 state not enabled, raises #UD. -/
def Obligations.UnavailableInstructionRaisesUd : Prop :=
  ∀ (s : State) (bs rest : List Byte) (i : Instr), fetch s = .ok bs →
    decode s.cfg.mode bs = .ok (i, rest) →
    ((∃ f ∈ rowFeatures i.width i.len, hasFeature s.cfg f = false) ∨
      ¬ Avx512StateEnabled s.cfg) →
    step s = .fault (.ud s.pc)

/-- R94: CR0.TS = 1 with no #UD condition raises #NM. -/
def Obligations.TaskSwitchedRaisesNm : Prop :=
  ∀ (s : State) (bs rest : List Byte) (i : Instr), fetch s = .ok bs →
    decode s.cfg.mode bs = .ok (i, rest) → s.cfg.ts = true → ¬ UdCondition i s →
    step s = .fault (.nm s.pc)

/-- The order of the checks (R60, R98): operands no bytes encode are refused (log 13), then every #UD
condition, then #NM, and only then the instruction completes. -/
def Obligations.ChecksComeInOrder : Prop :=
  ∀ (i : Instr) (s : State),
    (exec i s = .refused .notEncodable ↔ ¬ WellFormed s.cfg.mode i) ∧
    (exec i s = .fault (.ud s.pc) ↔ WellFormed s.cfg.mode i ∧ UdCondition i s) ∧
    (exec i s = .fault (.nm s.pc) ↔
      WellFormed s.cfg.mode i ∧ ¬ UdCondition i s ∧ s.cfg.ts = true) ∧
    ((∃ t, exec i s = .next t) ↔
      WellFormed s.cfg.mode i ∧ ¬ UdCondition i s ∧ s.cfg.ts = false)

/-- R2: each of the twelve rows completes only when every CPUID flag its row names is 1. -/
def Obligations.RowsNeedTheirCpuidFlags : Prop :=
  ∀ (o : EvexOperands) (s t : State),
    (exec (.vpbroadcastbXmm o) s = .next t → s.cfg.avx512vl = true ∧ s.cfg.avx512bw = true) ∧
    (exec (.vpbroadcastbYmm o) s = .next t → s.cfg.avx512vl = true ∧ s.cfg.avx512bw = true) ∧
    (exec (.vpbroadcastbZmm o) s = .next t → s.cfg.avx512bw = true) ∧
    (exec (.vpbroadcastwXmm o) s = .next t → s.cfg.avx512vl = true ∧ s.cfg.avx512bw = true) ∧
    (exec (.vpbroadcastwYmm o) s = .next t → s.cfg.avx512vl = true ∧ s.cfg.avx512bw = true) ∧
    (exec (.vpbroadcastwZmm o) s = .next t → s.cfg.avx512bw = true) ∧
    (exec (.vpbroadcastdXmm o) s = .next t → s.cfg.avx512vl = true ∧ s.cfg.avx512f = true) ∧
    (exec (.vpbroadcastdYmm o) s = .next t → s.cfg.avx512vl = true ∧ s.cfg.avx512f = true) ∧
    (exec (.vpbroadcastdZmm o) s = .next t → s.cfg.avx512f = true) ∧
    (exec (.vpbroadcastqXmm o) s = .next t → s.cfg.avx512vl = true ∧ s.cfg.avx512f = true) ∧
    (exec (.vpbroadcastqYmm o) s = .next t → s.cfg.avx512vl = true ∧ s.cfg.avx512f = true) ∧
    (exec (.vpbroadcastqZmm o) s = .next t → s.cfg.avx512f = true)

/-- R62 and R63, bit by bit, for every row: below VL, bit `b` belongs to element `b / ew`; it comes from
the source where that element is enabled, else from the old destination under merging, else it is 0;
from VL up every bit is 0. -/
def Obligations.MaskedWriteBitByBit : Prop :=
  ∀ (i : Instr) (s t : State), exec i s = .next t → ∀ b, b < 512 →
    (readZmm t i.ops.dst).getLsbD b =
      if i.len.bits ≤ b then false
      else if i.ops.aaa = 0#3 ∨ (readK s i.ops.aaa).getLsbD (b / i.width.bits) = true then
        (readGpr s i.ops.src).getLsbD (b % i.width.bits)
      else if i.ops.z = false then (readZmm s i.ops.dst).getLsbD b
      else false

/-- R64: none of the twelve writes anything but its destination register and `pc`, and `pc` only by
R67: no general-purpose or opmask register, no other vector register, not RFLAGS, not MXCSR, no byte of
memory, not the mode, no control bit. -/
def Obligations.OnlyDestinationAndPcAreWritten : Prop :=
  ∀ (i : Instr) (s t : State), exec i s = .next t →
    OnlyDestinationAndPcChange i.ops.dst s t ∧ t.pc = nextPc s.cfg.mode s.pc

/-- R67: an instruction that completes sets `pc` six further, to the next instruction in address
order. -/
def Obligations.PcAdvancesBySix : Prop :=
  ∀ (s t : State), step s = .next t → s.pc.toNat + 6 < 2 ^ s.cfg.mode.pcBits →
    t.pc.toNat = s.pc.toNat + 6

/-- The model's own reading of R17 (log 7): where the six bytes end exactly at the top of the address
space, `pc` becomes 0. -/
def Obligations.PcAtTheTopBecomesZero : Prop :=
  ∀ (s t : State), step s = .next t → s.pc.toNat + 6 = 2 ^ s.cfg.mode.pcBits → t.pc = 0#64

/-- R31: six bytes at `pc` are fetched and decoded; an undefined one refuses; so does a fetch past the
top of the address space (R17). -/
def Obligations.FetchReadsSixBytes : Prop :=
  ∀ (s : State),
    (∀ b0 b1 b2 b3 b4 b5, CodeAt s b0 b1 b2 b3 b4 b5 →
      (∀ i rest, decode s.cfg.mode [b0, b1, b2, b3, b4, b5] = .ok (i, rest) → step s = exec i s) ∧
      ∀ u, decode s.cfg.mode [b0, b1, b2, b3, b4, b5] = .error u →
        step s = .refused (.unsettledEncoding u)) ∧
    (s.pc.toNat + 5 < 2 ^ s.cfg.mode.pcBits → ∀ k, k < 6 →
      s.mem.read (s.pc.toNat + k) = none →
      (∀ j, j < k → s.mem.read (s.pc.toNat + j) ≠ none) →
      step s = .refused (.codeUndefined (s.pc.toNat + k))) ∧
    (2 ^ s.cfg.mode.pcBits ≤ s.pc.toNat + 5 → step s = .refused .fetchWraps)

/-- R39: over a run of any length the program text stays what it was; so do the mode and the other
parameters (R18). -/
def Obligations.ProgramTextAndParametersAreFixed : Prop :=
  ∀ (n : Nat) (s t : State), StepsTo n s t →
    t.mem = s.mem ∧ t.cfg = s.cfg

/-- R112: a run from launch address A over n instructions, with `cfg.END = A + 6n`, ends there after
exactly n steps. -/
def Obligations.RunEndsAfterNSteps : Prop :=
  ∀ (n fuel : Nat) (s t : State), StepsTo n s t → n ≤ fuel →
    s.pc.toNat + 6 * n < 2 ^ s.cfg.mode.pcBits → s.cfg.endPc.toNat = s.pc.toNat + 6 * n →
    runToEnd fuel 0 s = .finished n t

/-- R66 a and b: under an all-zero mask, merging keeps the bits below VL and clears the rest, and
zeroing clears the register. -/
def Obligations.AllZeroMaskKeepsOrClears : Prop :=
  ∀ (i : Instr) (s t : State), exec i s = .next t → i.ops.aaa ≠ 0#3 →
    (∀ j, j < i.len.bits / i.width.bits → (readK s i.ops.aaa).getLsbD j = false) →
    (i.ops.z = false → readZmm t i.ops.dst =
      readZmm s i.ops.dst &&& (BitVec.allOnes i.len.bits).setWidth 512) ∧
    (i.ops.z = true → readZmm t i.ops.dst = 0#512)

/-- R66 g and R14: without a writemask, and under zeroing, the old destination has no influence on the
state after. -/
def Obligations.OldDestinationMattersOnlyUnderMerging : Prop :=
  ∀ (i : Instr) (s t : State) (v : ZmmWord), i.ops.aaa = 0#3 ∨ i.ops.z = true →
    exec i s = .next t → exec i (writeZmm i.ops.dst v s) = .next t

/-- R66 h: executing an instruction twice in a row leaves the destination as executing it once. -/
def Obligations.ExecutingTwiceIsExecutingOnce : Prop :=
  ∀ (i : Instr) (s t : State), exec i s = .next t →
    ∃ u, exec i t = .next u ∧ readZmm u i.ops.dst = readZmm t i.ops.dst

/-- 10_state.md sections 1 to 3 (R12, whose source-bit sentence the spec marks as derived, R14, R16): of
the registers read, only the low `ew` bits of the source, mask bits `KL-1:0` and the old elements under
a clear mask bit influence the result; two states with the same parameters that agree there have the
same destination after, whatever else differs. -/
def Obligations.UnreadBitsDoNotInfluenceTheResult : Prop :=
  ∀ (i : Instr) (s s' t : State), s'.cfg = s.cfg →
    (readGpr s' i.ops.src).extractLsb' 0 i.width.bits =
      (readGpr s i.ops.src).extractLsb' 0 i.width.bits →
    (i.ops.aaa ≠ 0#3 → ∀ j, j < i.len.bits / i.width.bits →
      (readK s' i.ops.aaa).getLsbD j = (readK s i.ops.aaa).getLsbD j) →
    (i.ops.aaa ≠ 0#3 → i.ops.z = false → ∀ j, j < i.len.bits / i.width.bits →
      (readK s i.ops.aaa).getLsbD j = false →
      (readZmm s' i.ops.dst).extractLsb' (j * i.width.bits) i.width.bits =
        (readZmm s i.ops.dst).extractLsb' (j * i.width.bits) i.width.bits) →
    exec i s = .next t →
    ∃ t', exec i s' = .next t' ∧ readZmm t' i.ops.dst = readZmm t i.ops.dst ∧
      t'.gpr = s'.gpr ∧ t'.k = s'.k

/-- R95, R96: a fault is #UD or #NM, carries the address of the faulting instruction, and only bytes
that decode raise one. -/
def Obligations.FaultsAreUdOrNmAtPc : Prop :=
  ∀ (s : State) (f : Fault), step s = .fault f →
    (f = .ud s.pc ∨ f = .nm s.pc) ∧
      ∃ bs i rest, fetch s = .ok bs ∧ decode s.cfg.mode bs = .ok (i, rest)

/-- R44's hexadecimal list: the twelve rows at all-register-0, no mask, merging. -/
def Obligations.TableWordsDecodeToTheirRows : Prop :=
  let o : EvexOperands := ⟨0b1111#4, 0#5, 0#4, 0#3, false⟩
  decode .mode64 [0x62, 0xF2, 0x7D, 0x08, 0x7A, 0xC0] = .ok (.vpbroadcastbXmm o, []) ∧
  decode .mode64 [0x62, 0xF2, 0x7D, 0x28, 0x7A, 0xC0] = .ok (.vpbroadcastbYmm o, []) ∧
  decode .mode64 [0x62, 0xF2, 0x7D, 0x48, 0x7A, 0xC0] = .ok (.vpbroadcastbZmm o, []) ∧
  decode .mode64 [0x62, 0xF2, 0x7D, 0x08, 0x7B, 0xC0] = .ok (.vpbroadcastwXmm o, []) ∧
  decode .mode64 [0x62, 0xF2, 0x7D, 0x28, 0x7B, 0xC0] = .ok (.vpbroadcastwYmm o, []) ∧
  decode .mode64 [0x62, 0xF2, 0x7D, 0x48, 0x7B, 0xC0] = .ok (.vpbroadcastwZmm o, []) ∧
  decode .mode64 [0x62, 0xF2, 0x7D, 0x08, 0x7C, 0xC0] = .ok (.vpbroadcastdXmm o, []) ∧
  decode .mode64 [0x62, 0xF2, 0x7D, 0x28, 0x7C, 0xC0] = .ok (.vpbroadcastdYmm o, []) ∧
  decode .mode64 [0x62, 0xF2, 0x7D, 0x48, 0x7C, 0xC0] = .ok (.vpbroadcastdZmm o, []) ∧
  decode .mode64 [0x62, 0xF2, 0xFD, 0x08, 0x7C, 0xC0] = .ok (.vpbroadcastqXmm o, []) ∧
  decode .mode64 [0x62, 0xF2, 0xFD, 0x28, 0x7C, 0xC0] = .ok (.vpbroadcastqYmm o, []) ∧
  decode .mode64 [0x62, 0xF2, 0xFD, 0x48, 0x7C, 0xC0] = .ok (.vpbroadcastqZmm o, [])

/-- R111 at launch, by the model's choice (logs 2, 3, 4, 9 and 25; the spec gives no reset value): the
boot premises hold in Mode64, every register file and `pc` is 0, and no program is placed. -/
def Obligations.ResetIsTheNamedLaunchState : Prop :=
  BootPremises State.reset.cfg ∧ State.reset.cfg.mode = .mode64 ∧ State.reset.cfg.endPc = 0#64 ∧
    (∀ n, readGpr State.reset n = 0#64) ∧ (∀ n, readZmm State.reset n = 0#512) ∧
    (∀ n, readK State.reset n = 0#64) ∧ State.reset.pc = 0#64 ∧ State.reset.rflags = 0x2#64 ∧
    State.reset.mxcsr = 0x1F80#32 ∧ ∀ a, State.reset.mem.read a = none

/-- The invariant holds at the launch state. -/
def Obligations.ResetMeetsTheInvariant : Prop :=
  Inv State.reset

/-- Every step keeps the invariant: canonical memory, and a program counter inside the mode's address
space (R17). -/
def Obligations.EveryStepKeepsTheInvariant : Prop :=
  ∀ (s t : State), Inv s → step s = .next t → Inv t

/-- R60: when the bytes at `pc` decode to an instruction, the step is that instruction's execution at
the same state; `pc` is advanced by the meaning, not around it. -/
def Obligations.StepRunsTheDecodedInstruction : Prop :=
  ∀ (s : State) (bs rest : List Byte) (i : Instr), fetch s = .ok bs →
    decode s.cfg.mode bs = .ok (i, rest) → step s = exec i s

/-- An instruction placed at `pc` from outside (log 24) is the one the next step runs. -/
def Obligations.PlacedInstructionRunsNext : Prop :=
  ∀ (s : State) (nbits w : Nat) (i : Instr) (rest : List Byte),
    s.pc.toNat + 5 < 2 ^ s.cfg.mode.pcBits →
    decode s.cfg.mode (tableBytes nbits w) = .ok (i, rest) →
    step (s.withFetchWord nbits w) = exec i (s.withFetchWord nbits w)
end

