-- ==== Sys2Proof/Tests/Slice0.lean ====
section
/-! SUPPORT. Tests: ill-formed terms, decoding of words written out from 30_encoding.md, the derived
vectors of 95_test_vectors.md (one step each), and a witness for the hypotheses of each statement. -/

namespace Sys2Proof.Tests

open Sys2Proof.Machine

/-- 95_test_vectors.md: the register whose byte number `n` equals `n`. -/
def oldZmm : ZmmWord :=
  0x3F3E3D3C3B3A393837363534333231302F2E2D2C2B2A292827262524232221201F1E1D1C1B1A191817161514131211100F0E0D0C0B0A09080706050403020100

/-- The launch state in a mode, with `pc` and bytes there. -/
def codeState (m : Mode) (pc : Addr) (bytes : List Byte) : State :=
  { State.reset with
    pc := pc
    mem := Memory.place [] pc bytes
    cfg := { launchConfig with mode := m } }

/-- A vector's state: bytes at `pc = 0`, one source, one mask, every vector register `oldZmm`. -/
def vectorState (m : Mode) (bytes : List Byte) (src : Fin 16) (v : GprWord) (k : Fin 8)
    (mask : KWord) : State :=
  { codeState m 0 bytes with
    gpr := State.reset.gpr.set src v
    zmm := Vector.replicate 32 oldZmm
    k := State.reset.k.set k mask }

/-- A register after a step, with `pc`. -/
def zmmAndPc (o : Host.Outcome State Fault Refusal) (n : BitVec 5) : Option (ZmmWord × Addr) :=
  match o with
  | .next t => some (readZmm t n, t.pc)
  | _ => none

def faultOf (o : Host.Outcome State Fault Refusal) : Option Fault :=
  match o with
  | .fault f => some f
  | _ => none

def refusalOf (o : Host.Outcome State Fault Refusal) : Option Refusal :=
  match o with
  | .refused r => some r
  | _ => none

def isNext (o : Host.Outcome State Fault Refusal) : Bool :=
  match o with
  | .next _ => true
  | _ => false

/-- The refusal of a decode. -/
def unsettledItem (m : Mode) (bytes : List Byte) : Option Unsettled :=
  match decode m bytes with
  | .error u => some u
  | .ok _ => none

/-- The instruction of a decode. -/
def decoded (m : Mode) (bytes : List Byte) : Option Instr :=
  match decode m bytes with
  | .ok (i, []) => some i
  | _ => none

/-! ## Ill-formed terms, one for each check -/

/-- R54 d: zeroing without a writemask. -/
theorem test_zeroing_without_mask_ill_formed :
    Instr.wellFormed .mode64 (.vpbroadcastbXmm ⟨15, 0, 0, 0, true⟩) = false := by decide

/-- R10, R13: registers 8 and up do not exist in Mode32. -/
theorem test_high_destination_ill_formed_in_mode32 :
    Instr.wellFormed .mode32 (.vpbroadcastbXmm ⟨15, 8, 0, 0, false⟩) = false := by decide

theorem test_high_source_ill_formed_in_mode32 :
    Instr.wellFormed .mode32 (.vpbroadcastbXmm ⟨15, 0, 8, 0, false⟩) = false := by decide

/-- R52: no VPBROADCASTQ in Mode32. -/
theorem test_quadword_ill_formed_in_mode32 :
    Instr.wellFormed .mode32 (.vpbroadcastqXmm ⟨15, 0, 0, 0, false⟩) = false := by decide

theorem test_ill_formed_is_refused :
    refusalOf (exec (.vpbroadcastqXmm ⟨15, 0, 0, 0, false⟩) (codeState .mode32 0 [])) =
      some .notEncodable := by decide

/-! ## Decoding words written out bit by bit from R44 -/

/-- 62h; P0 = R 1 B r 0010; P1 = W vvvv 101; P2 = z L'L 01 aaa; 7Ah; ModRM = 11 ggg mmm. -/
theorem test_decode_vpbroadcastb_bits :
    decoded .mode64 [0b01100010, 0b11110010, 0b01111101, 0b10001001, 0b01111010, 0b11001010] =
      some (.vpbroadcastbXmm ⟨15, 1, 2, 1, true⟩) := by decide

/-- ymm17{k5}{z}, r9d: stored R' = 0 and B = 0. -/
theorem test_decode_vpbroadcastw_bits :
    decoded .mode64 [0b01100010, 0b11000010, 0b01111101, 0b10101101, 0b01111011, 0b11001001] =
      some (.vpbroadcastwYmm ⟨15, 17, 9, 5, true⟩) := by decide

theorem test_decode_vpbroadcastd_bits :
    decoded .mode64 [0b01100010, 0b11110010, 0b01111101, 0b10001011, 0b01111100, 0b11010011] =
      some (.vpbroadcastdXmm ⟨15, 2, 3, 3, true⟩) := by decide

/-- ymm30{k6}{z}, r13: stored R = 0, R' = 0 and B = 0. -/
theorem test_decode_vpbroadcastq_bits :
    decoded .mode64 [0b01100010, 0b01000010, 0b11111101, 0b10101110, 0b01111100, 0b11110101] =
      some (.vpbroadcastqYmm ⟨15, 30, 13, 6, true⟩) := by decide

/-- R44's list: each of the twelve rows, at all-register-0, no mask, merging, from its hexadecimal
word. -/
theorem test_row_vpbroadcastbXmm :
    decoded .mode64 [0x62, 0xF2, 0x7D, 0x08, 0x7A, 0xC0] =
      some (.vpbroadcastbXmm ⟨15, 0, 0, 0, false⟩) := by decide
theorem test_row_vpbroadcastbYmm :
    decoded .mode64 [0x62, 0xF2, 0x7D, 0x28, 0x7A, 0xC0] =
      some (.vpbroadcastbYmm ⟨15, 0, 0, 0, false⟩) := by decide
theorem test_row_vpbroadcastbZmm :
    decoded .mode64 [0x62, 0xF2, 0x7D, 0x48, 0x7A, 0xC0] =
      some (.vpbroadcastbZmm ⟨15, 0, 0, 0, false⟩) := by decide
theorem test_row_vpbroadcastwXmm :
    decoded .mode64 [0x62, 0xF2, 0x7D, 0x08, 0x7B, 0xC0] =
      some (.vpbroadcastwXmm ⟨15, 0, 0, 0, false⟩) := by decide
theorem test_row_vpbroadcastwYmm :
    decoded .mode64 [0x62, 0xF2, 0x7D, 0x28, 0x7B, 0xC0] =
      some (.vpbroadcastwYmm ⟨15, 0, 0, 0, false⟩) := by decide
theorem test_row_vpbroadcastwZmm :
    decoded .mode64 [0x62, 0xF2, 0x7D, 0x48, 0x7B, 0xC0] =
      some (.vpbroadcastwZmm ⟨15, 0, 0, 0, false⟩) := by decide
theorem test_row_vpbroadcastdXmm :
    decoded .mode64 [0x62, 0xF2, 0x7D, 0x08, 0x7C, 0xC0] =
      some (.vpbroadcastdXmm ⟨15, 0, 0, 0, false⟩) := by decide
theorem test_row_vpbroadcastdYmm :
    decoded .mode64 [0x62, 0xF2, 0x7D, 0x28, 0x7C, 0xC0] =
      some (.vpbroadcastdYmm ⟨15, 0, 0, 0, false⟩) := by decide
theorem test_row_vpbroadcastdZmm :
    decoded .mode64 [0x62, 0xF2, 0x7D, 0x48, 0x7C, 0xC0] =
      some (.vpbroadcastdZmm ⟨15, 0, 0, 0, false⟩) := by decide
theorem test_row_vpbroadcastqXmm :
    decoded .mode64 [0x62, 0xF2, 0xFD, 0x08, 0x7C, 0xC0] =
      some (.vpbroadcastqXmm ⟨15, 0, 0, 0, false⟩) := by decide
theorem test_row_vpbroadcastqYmm :
    decoded .mode64 [0x62, 0xF2, 0xFD, 0x28, 0x7C, 0xC0] =
      some (.vpbroadcastqYmm ⟨15, 0, 0, 0, false⟩) := by decide
theorem test_row_vpbroadcastqZmm :
    decoded .mode64 [0x62, 0xF2, 0xFD, 0x48, 0x7C, 0xC0] =
      some (.vpbroadcastqZmm ⟨15, 0, 0, 0, false⟩) := by decide

/-- The rows of the opcode table do not overlap, in either mode: two rows differ in a bit both fix. -/
theorem test_table_rows_disjoint :
    ∀ m ∈ [Mode.mode64, Mode.mode32], (tableRows m).Pairwise fun r r' =>
      List.zipWith (· &&& ·) r.pattern (List.zipWith (· &&& ·) r.mask r'.mask) ≠
        List.zipWith (· &&& ·) r'.pattern (List.zipWith (· &&& ·) r.mask r'.mask) := by
  decide +kernel

/-- V-R1 to V-R4: the extension bits. -/
theorem test_register_numbers :
    decoded .mode64 [0x62, 0x72, 0x7D, 0x48, 0x7C, 0xC0] =
        some (.vpbroadcastdZmm ⟨15, 8, 0, 0, false⟩) ∧
      decoded .mode64 [0x62, 0xD2, 0x7D, 0x48, 0x7C, 0xC0] =
        some (.vpbroadcastdZmm ⟨15, 0, 8, 0, false⟩) ∧
      decoded .mode64 [0x62, 0xE2, 0x7D, 0x48, 0x7C, 0xC0] =
        some (.vpbroadcastdZmm ⟨15, 16, 0, 0, false⟩) ∧
      decoded .mode64 [0x62, 0x42, 0x7D, 0x4F, 0x7A, 0xFF] =
        some (.vpbroadcastbZmm ⟨15, 31, 15, 7, false⟩) := by
  decide

/-- V-R5 to V-R7. -/
theorem test_extension_bits_refused_in_mode32 :
    unsettledItem .mode32 [0x62, 0x72, 0x7D, 0x48, 0x7C, 0xC0] = some .boundInMode32 ∧
      unsettledItem .mode32 [0x62, 0xD2, 0x7D, 0x48, 0x7C, 0xC0] = some .extensionInMode32 ∧
      unsettledItem .mode32 [0x62, 0xE2, 0x7D, 0x48, 0x7C, 0xC0] = some .extensionInMode32 := by
  decide

/-- V-X1 to V-X8. -/
theorem test_refused_encodings_a_to_g :
    unsettledItem .mode64 [0x62, 0xF2, 0x7D, 0x48, 0x7C, 0x00] = some .memoryOperand ∧
      unsettledItem .mode64 [0x62, 0xF2, 0x7D, 0x58, 0x7C, 0xC0] = some .evexB ∧
      unsettledItem .mode64 [0x62, 0xF2, 0x7D, 0x68, 0x7C, 0xC0] = some .vectorLength11 ∧
      unsettledItem .mode64 [0x62, 0xF2, 0x7D, 0xC8, 0x7C, 0xC0] = some .zeroingWithoutMask ∧
      unsettledItem .mode64 [0x62, 0xF2, 0x7D, 0x40, 0x7C, 0xC0] = some .vPrime ∧
      unsettledItem .mode64 [0x62, 0xB2, 0x7D, 0x48, 0x7C, 0xC0] = some .extensionX ∧
      unsettledItem .mode64 [0x62, 0xF6, 0x7D, 0x48, 0x7C, 0xC0] = some .reservedBits ∧
      unsettledItem .mode64 [0x62, 0xF2, 0x79, 0x48, 0x7C, 0xC0] = some .reservedBits := by
  decide

/-- V-X9 to V-X16, and a segment-override byte first (R54 j). -/
theorem test_refused_encodings_h_to_m :
    unsettledItem .mode64 [0x62, 0xF2, 0xFD, 0x48, 0x7A, 0xC0] = some .wOnByteOrWord ∧
      unsettledItem .mode32 [0x62, 0xF2, 0xFD, 0x48, 0x7A, 0xC0] = some .wOnByteOrWord ∧
      unsettledItem .mode64 [0x62, 0xF2, 0xFD, 0x48, 0x7B, 0xC0] = some .wOnByteOrWord ∧
      unsettledItem .mode64 [0x66, 0x62, 0xF2, 0x7D, 0x48, 0x7C] = some .legacyByteBefore ∧
      unsettledItem .mode64 [0x64, 0x62, 0xF2, 0x7D, 0x48, 0x7C] = some .segmentOrSizeByteBefore ∧
      unsettledItem .mode64 [0x62, 0xF1, 0x7D, 0x48, 0x7C, 0xC0] = some .otherInstruction ∧
      unsettledItem .mode64 [0x62, 0xF2, 0x7C, 0x48, 0x7C, 0xC0] = some .otherInstruction ∧
      unsettledItem .mode64 [0x62, 0xF2, 0x7D, 0x48, 0x7D, 0xC0] = some .otherInstruction ∧
      unsettledItem .mode64 [0x62, 0xF2, 0x75, 0x58, 0x7C, 0xC0] = some .evexB := by
  decide

/-- The host's reading of a table word: byte 0 lowest, and the table's own `match` number. -/
theorem test_table_word_both_orders :
    decodeTableWord 48 0xC07C487DF262 = some (.vpbroadcastdZmm ⟨15, 0, 0, 0, false⟩) ∧
      decodeTableWord 48 0x62F27D487CC0 = some (.vpbroadcastdZmm ⟨15, 0, 0, 0, false⟩) ∧
      decodeTableWord 48 0x624285487CC0 = some (.vpbroadcastqZmm ⟨0, 24, 8, 0, false⟩) := by
  decide

/-! ## Execution: the derived vectors of 95_test_vectors.md, section 2 -/

/-- V-B2. -/
theorem test_vpbroadcastb_xmm_zeroing :
    zmmAndPc (step (vectorState .mode64 [0x62, 0xF2, 0x7D, 0x89, 0x7A, 0xCA] 2 0x1122334455667788 1 0xFFFFFFFFFFFF00F0))
      1 = some (0x8888888800000000, 6) := by
  decide +kernel

/-- V-B6. -/
theorem test_vpbroadcastb_xmm_zero_mask_merging :
    zmmAndPc (step (vectorState .mode64 [0x62, 0xF2, 0x7D, 0x09, 0x7A, 0xC0] 0 0xFF 1 0xFFFFFFFFFFFF0000))
      0 = some (0xF0E0D0C0B0A09080706050403020100, 6) := by
  decide +kernel

/-- V-B3. -/
theorem test_vpbroadcastb_ymm_merging :
    zmmAndPc (step (vectorState .mode64 [0x62, 0xF2, 0x7D, 0x2A, 0x7A, 0xD9] 1 0xFFFFFF00000001AB 2 0x00000000F0F0F0F0))
      3 = some (0xABABABAB1B1A1918ABABABAB13121110ABABABAB0B0A0908ABABABAB03020100, 6) := by
  decide +kernel

/-- V-B4. -/
theorem test_vpbroadcastb_zmm_mask_bit_63 :
    zmmAndPc (step (vectorState .mode64 [0x62, 0x42, 0x7D, 0x4F, 0x7A, 0xFF] 15 0x5A 7 0x8000000000000001))
      31 = some (0x5A3E3D3C3B3A393837363534333231302F2E2D2C2B2A292827262524232221201F1E1D1C1B1A191817161514131211100F0E0D0C0B0A0908070605040302015A, 6) := by
  decide +kernel

/-- V-B5. -/
theorem test_vpbroadcastb_zmm_zero_mask_zeroing :
    zmmAndPc (step (vectorState .mode64 [0x62, 0xF2, 0x7D, 0xC9, 0x7A, 0xC0] 0 0xFF 1 0x0))
      0 = some (0x0, 6) := by
  decide +kernel

/-- V-W1. -/
theorem test_vpbroadcastw_xmm_merging :
    zmmAndPc (step (vectorState .mode64 [0x62, 0xF2, 0x7D, 0x09, 0x7B, 0xC0] 0 0x00000000DEADBEEF 1 0xFFFFFFFFFFFFFF55))
      0 = some (0xF0EBEEF0B0ABEEF0706BEEF0302BEEF, 6) := by
  decide +kernel

/-- V-W2. -/
theorem test_vpbroadcastw_ymm_zeroing :
    zmmAndPc (step (vectorState .mode64 [0x62, 0xC2, 0x7D, 0xAD, 0x7B, 0xC9] 9 0x0123456789ABCDEF 5 0x000000000000FF00))
      17 = some (0xCDEFCDEFCDEFCDEFCDEFCDEFCDEFCDEF00000000000000000000000000000000, 6) := by
  decide +kernel

/-- V-W3. -/
theorem test_vpbroadcastw_zmm_unmasked :
    zmmAndPc (step (vectorState .mode64 [0x62, 0x72, 0x7D, 0x48, 0x7B, 0xC4] 4 0xFFFF0000FFFF8001 1 0x0))
      8 = some (0x80018001800180018001800180018001800180018001800180018001800180018001800180018001800180018001800180018001800180018001800180018001, 6) := by
  decide +kernel

/-- V-D1. -/
theorem test_vpbroadcastd_xmm_zeroing :
    zmmAndPc (step (vectorState .mode64 [0x62, 0xF2, 0x7D, 0x8B, 0x7C, 0xD3] 3 0xAAAAAAAA80000001 3 0x00000000000000F6))
      2 = some (0x800000018000000100000000, 6) := by
  decide +kernel

/-- V-A3. -/
theorem test_vpbroadcastd_xmm_mode32_w_ignored :
    zmmAndPc (step (vectorState .mode32 [0x62, 0xF2, 0xFD, 0x08, 0x7C, 0xC0] 0 0xAAAAAAAA00000001 1 0x0))
      0 = some (0x1000000010000000100000001, 6) := by
  decide +kernel

/-- V-D2. -/
theorem test_vpbroadcastd_ymm_merging :
    zmmAndPc (step (vectorState .mode64 [0x62, 0xF2, 0x7D, 0x2C, 0x7C, 0xEE] 6 0x00000000CAFEBABE 4 0x0F))
      5 = some (0x1F1E1D1C1B1A19181716151413121110CAFEBABECAFEBABECAFEBABECAFEBABE, 6) := by
  decide +kernel

/-- V-D4. -/
theorem test_vpbroadcastd_zmm_merging :
    zmmAndPc (step (vectorState .mode64 [0x62, 0xC2, 0x7D, 0x49, 0x7C, 0xC0] 8 0x000000000BADF00D 1 0xAAAA))
      16 = some (0xBADF00D3B3A39380BADF00D333231300BADF00D2B2A29280BADF00D232221200BADF00D1B1A19180BADF00D131211100BADF00D0B0A09080BADF00D03020100, 6) := by
  decide +kernel

/-- V-A1. -/
theorem test_vpbroadcastd_zmm_mode32_w_ignored :
    zmmAndPc (step (vectorState .mode32 [0x62, 0xF2, 0xFD, 0x48, 0x7C, 0xC0] 0 0xFFFFFFFF12345678 1 0x0))
      0 = some (0x12345678123456781234567812345678123456781234567812345678123456781234567812345678123456781234567812345678123456781234567812345678, 6) := by
  decide +kernel

/-- V-Q1. -/
theorem test_vpbroadcastq_xmm_merging :
    zmmAndPc (step (vectorState .mode64 [0x62, 0xF2, 0xFD, 0x09, 0x7C, 0xC8] 0 0x1122334455667788 1 0x2))
      1 = some (0x11223344556677880706050403020100, 6) := by
  decide +kernel

/-- V-Q2. -/
theorem test_vpbroadcastq_ymm_zeroing :
    zmmAndPc (step (vectorState .mode64 [0x62, 0x42, 0xFD, 0xAE, 0x7C, 0xF5] 13 0x8000000000000000 6 0xFD))
      30 = some (0x8000000000000000800000000000000000000000000000008000000000000000, 6) := by
  decide +kernel

/-- V-Q4. -/
theorem test_vpbroadcastq_zmm_same_number :
    zmmAndPc (step (vectorState .mode64 [0x62, 0xF2, 0xFD, 0x4A, 0x7C, 0xFF] 7 0xFFFFFFFFFFFFFFFF 2 0x81))
      7 = some (0xFFFFFFFFFFFFFFFF37363534333231302F2E2D2C2B2A292827262524232221201F1E1D1C1B1A191817161514131211100F0E0D0C0B0A0908FFFFFFFFFFFFFFFF, 6) := by
  decide +kernel

/-- V-A2. -/
theorem test_vpbroadcastq_zmm_unmasked :
    zmmAndPc (step (vectorState .mode64 [0x62, 0xF2, 0xFD, 0x48, 0x7C, 0xC0] 0 0xFFFFFFFF12345678 1 0x0))
      0 = some (0xFFFFFFFF12345678FFFFFFFF12345678FFFFFFFF12345678FFFFFFFF12345678FFFFFFFF12345678FFFFFFFF12345678FFFFFFFF12345678FFFFFFFF12345678, 6) := by
  decide +kernel

/-! ## Faults: section 3 of 95_test_vectors.md -/

/-- V-UD1 to V-UD3: reserved vvvv, in both modes, W = 1 too. -/
theorem test_reserved_vvvv_faults :
    faultOf (step (codeState .mode64 0x2006 [0x62, 0xF2, 0x75, 0x48, 0x7C, 0xC0])) =
        some (.ud 0x2006) ∧
      faultOf (step (codeState .mode64 0 [0x62, 0xF2, 0x05, 0x48, 0x7C, 0xC0])) = some (.ud 0) ∧
      faultOf (step (codeState .mode64 0 [0x62, 0xF2, 0x85, 0x48, 0x7C, 0xC0])) = some (.ud 0) ∧
      faultOf (step (codeState .mode32 0 [0x62, 0xF2, 0x85, 0x48, 0x7C, 0xC0])) = some (.ud 0) := by
  decide +kernel

/-- A vector's configuration, with the code of the zmm dword form unless said otherwise. -/
def cfgState (c : Config) (bytes : List Byte) : State :=
  { codeState .mode64 0 bytes with cfg := c }

/-- V-UD4 to V-UD7: the CPUID flags. -/
theorem test_cpuid_flags :
    faultOf (step (cfgState { launchConfig with avx512vl := false }
        [0x62, 0xF2, 0x7D, 0x08, 0x7C, 0xC0])) = some (.ud 0) ∧
      isNext (step (cfgState { launchConfig with avx512vl := false }
        [0x62, 0xF2, 0x7D, 0x48, 0x7C, 0xC0])) = true ∧
      faultOf (step (cfgState { launchConfig with avx512bw := false }
        [0x62, 0xF2, 0x7D, 0x48, 0x7A, 0xC0])) = some (.ud 0) ∧
      isNext (step (cfgState { launchConfig with avx512bw := false }
        [0x62, 0xF2, 0x7D, 0x48, 0x7C, 0xC0])) = true := by
  decide +kernel

/-- V-UD8 (each enabling bit), V-NM1 and V-NM2. -/
theorem test_enabling_and_task_switched :
    faultOf (step (cfgState { launchConfig with osxsave := false }
        [0x62, 0xF2, 0x7D, 0x48, 0x7C, 0xC0])) = some (.ud 0) ∧
      faultOf (step (cfgState { launchConfig with xcr0Avx512 := 0b110 }
        [0x62, 0xF2, 0x7D, 0x48, 0x7C, 0xC0])) = some (.ud 0) ∧
      faultOf (step (cfgState { launchConfig with xcr0AvxSse := 0b01 }
        [0x62, 0xF2, 0x7D, 0x48, 0x7C, 0xC0])) = some (.ud 0) ∧
      faultOf (step (cfgState { launchConfig with ts := true }
        [0x62, 0xF2, 0x7D, 0x48, 0x7C, 0xC0])) = some (.nm 0) ∧
      faultOf (step (cfgState { launchConfig with ts := true }
        [0x62, 0xF2, 0x75, 0x48, 0x7C, 0xC0])) = some (.ud 0) := by
  decide +kernel

/-- R31, R17: an undefined byte, the reset state (no program), and a fetch past the top in either
mode. -/
theorem test_fetch_refusals :
    refusalOf (step (codeState .mode64 0x3000 [0x62, 0xF2, 0x7D, 0x48, 0x7C])) =
        some (.codeUndefined 0x3005) ∧
      refusalOf (step State.reset) = some (.codeUndefined 0) ∧
      refusalOf (step (codeState .mode64 0xFFFFFFFFFFFFFFFB [])) = some .fetchWraps ∧
      refusalOf (step (codeState .mode32 0xFFFFFFFB [])) = some .fetchWraps := by
  decide +kernel

/-- The host's own question, on a table word with vvvv = 1111b: the first step after reset runs it. -/
theorem test_first_step_after_reset :
    isNext (step (State.reset.withFetchWord 48 0x62F27D487CC0)) = true := by
  decide +kernel

/-- R96: the vector numbers. -/
theorem test_vector_numbers : vectorNumber (.ud 0) = 6 ∧ vectorNumber (.nm 0) = 7 := by decide

/-! ## Witnesses: concrete states and operands that meet each statement's hypotheses -/

/-- All-boundary operands: the highest registers and mask, zeroing. -/
def topOps : EvexOperands := ⟨0b1111, 31, 15, 7, true⟩

/-- The highest registers of Mode32. -/
def topOps32 : EvexOperands := ⟨0b1111, 7, 7, 7, false⟩

def run64 : State := codeState .mode64 0 [0x62, 0xF2, 0x7D, 0x48, 0x7C, 0xC0]

def run32 : State := codeState .mode32 0 [0x62, 0xF2, 0xFD, 0x48, 0x7C, 0xC0]

theorem witness_VpbroadcastbXmmCompletes :
    WellFormed run64.cfg.mode (.vpbroadcastbXmm topOps) ∧ topOps.vvvv = 0b1111#4 ∧ run64.cfg.avx512vl = true ∧ run64.cfg.avx512bw = true ∧
      Avx512StateEnabled run64.cfg ∧ run64.cfg.ts = false ∧
      WellFormed run32.cfg.mode (.vpbroadcastbXmm topOps32) := by
  decide

theorem witness_VpbroadcastbYmmCompletes :
    WellFormed run64.cfg.mode (.vpbroadcastbYmm topOps) ∧ topOps.vvvv = 0b1111#4 ∧ run64.cfg.avx512vl = true ∧ run64.cfg.avx512bw = true ∧
      Avx512StateEnabled run64.cfg ∧ run64.cfg.ts = false ∧
      WellFormed run32.cfg.mode (.vpbroadcastbYmm topOps32) := by
  decide

theorem witness_VpbroadcastbZmmCompletes :
    WellFormed run64.cfg.mode (.vpbroadcastbZmm topOps) ∧ topOps.vvvv = 0b1111#4 ∧ run64.cfg.avx512bw = true ∧
      Avx512StateEnabled run64.cfg ∧ run64.cfg.ts = false ∧
      WellFormed run32.cfg.mode (.vpbroadcastbZmm topOps32) := by
  decide

theorem witness_VpbroadcastwXmmCompletes :
    WellFormed run64.cfg.mode (.vpbroadcastwXmm topOps) ∧ topOps.vvvv = 0b1111#4 ∧ run64.cfg.avx512vl = true ∧ run64.cfg.avx512bw = true ∧
      Avx512StateEnabled run64.cfg ∧ run64.cfg.ts = false ∧
      WellFormed run32.cfg.mode (.vpbroadcastwXmm topOps32) := by
  decide

theorem witness_VpbroadcastwYmmCompletes :
    WellFormed run64.cfg.mode (.vpbroadcastwYmm topOps) ∧ topOps.vvvv = 0b1111#4 ∧ run64.cfg.avx512vl = true ∧ run64.cfg.avx512bw = true ∧
      Avx512StateEnabled run64.cfg ∧ run64.cfg.ts = false ∧
      WellFormed run32.cfg.mode (.vpbroadcastwYmm topOps32) := by
  decide

theorem witness_VpbroadcastwZmmCompletes :
    WellFormed run64.cfg.mode (.vpbroadcastwZmm topOps) ∧ topOps.vvvv = 0b1111#4 ∧ run64.cfg.avx512bw = true ∧
      Avx512StateEnabled run64.cfg ∧ run64.cfg.ts = false ∧
      WellFormed run32.cfg.mode (.vpbroadcastwZmm topOps32) := by
  decide

theorem witness_VpbroadcastdXmmCompletes :
    WellFormed run64.cfg.mode (.vpbroadcastdXmm topOps) ∧ topOps.vvvv = 0b1111#4 ∧ run64.cfg.avx512vl = true ∧ run64.cfg.avx512f = true ∧
      Avx512StateEnabled run64.cfg ∧ run64.cfg.ts = false ∧
      WellFormed run32.cfg.mode (.vpbroadcastdXmm topOps32) := by
  decide

theorem witness_VpbroadcastdYmmCompletes :
    WellFormed run64.cfg.mode (.vpbroadcastdYmm topOps) ∧ topOps.vvvv = 0b1111#4 ∧ run64.cfg.avx512vl = true ∧ run64.cfg.avx512f = true ∧
      Avx512StateEnabled run64.cfg ∧ run64.cfg.ts = false ∧
      WellFormed run32.cfg.mode (.vpbroadcastdYmm topOps32) := by
  decide

theorem witness_VpbroadcastdZmmCompletes :
    WellFormed run64.cfg.mode (.vpbroadcastdZmm topOps) ∧ topOps.vvvv = 0b1111#4 ∧ run64.cfg.avx512f = true ∧
      Avx512StateEnabled run64.cfg ∧ run64.cfg.ts = false ∧
      WellFormed run32.cfg.mode (.vpbroadcastdZmm topOps32) := by
  decide

theorem witness_VpbroadcastqXmmCompletes :
    WellFormed run64.cfg.mode (.vpbroadcastqXmm topOps) ∧ topOps.vvvv = 0b1111#4 ∧ run64.cfg.avx512vl = true ∧ run64.cfg.avx512f = true ∧
      Avx512StateEnabled run64.cfg ∧ run64.cfg.ts = false := by
  decide

theorem witness_VpbroadcastqYmmCompletes :
    WellFormed run64.cfg.mode (.vpbroadcastqYmm topOps) ∧ topOps.vvvv = 0b1111#4 ∧ run64.cfg.avx512vl = true ∧ run64.cfg.avx512f = true ∧
      Avx512StateEnabled run64.cfg ∧ run64.cfg.ts = false := by
  decide

theorem witness_VpbroadcastqZmmCompletes :
    WellFormed run64.cfg.mode (.vpbroadcastqZmm topOps) ∧ topOps.vvvv = 0b1111#4 ∧ run64.cfg.avx512f = true ∧
      Avx512StateEnabled run64.cfg ∧ run64.cfg.ts = false := by
  decide

theorem witness_DecodeEncodeRoundTrip :
    WellFormed .mode64 (.vpbroadcastqZmm topOps) ∧ WellFormed .mode32 (.vpbroadcastbXmm topOps32) := by
  decide

theorem witness_DecodeIsCanonicalInMode64 :
    decode .mode64 (encode (.vpbroadcastqZmm topOps) ++ [0x90]) =
      .ok (.vpbroadcastqZmm topOps, [0x90]) := by
  rfl

/-- Both cases: W = 0 and, for VPBROADCASTD, W = 1. -/
theorem witness_DecodeInMode32FreesOnlyW :
    decode .mode32 (encode (.vpbroadcastbXmm topOps32)) = .ok (.vpbroadcastbXmm topOps32, []) ∧
      decode .mode32 [0x62, 0xF2, 0xFD, 0x4F, 0x7C, 0xFF] =
        .ok (.vpbroadcastdZmm topOps32, []) := by
  exact ⟨rfl, rfl⟩

theorem witness_DecodedIsWellFormedAndSixBytes :
    decode .mode32 [0x62, 0xF2, 0x7D, 0x4F, 0x7C, 0xFF, 0x90] =
      .ok (.vpbroadcastdZmm topOps32, [0x90]) := by
  rfl

/-- A Mode64 word with every field at its top, and a Mode32 word. -/
theorem witness_OperandFieldsAreAssembled :
    decode .mode64 [0x62, 0x42, 0xFD, 0xCF, 0x7C, 0xFF] = .ok (.vpbroadcastqZmm topOps, []) ∧
      decode .mode32 [0x62, 0xF2, 0x7D, 0x4F, 0x7C, 0xFF] =
        .ok (.vpbroadcastdZmm topOps32, []) := by
  exact ⟨rfl, rfl⟩

/-- L'L = 11b, 00b, 01b, 10b, and an instruction of each element width. -/
theorem witness_VectorLengthFieldIsRead :
    (0x68#8).extractLsb' 5 2 = 0b11#2 ∧
      decoded .mode64 [0x62, 0xF2, 0x7D, 0x08, 0x7A, 0xC0] =
        some (.vpbroadcastbXmm ⟨15, 0, 0, 0, false⟩) ∧
      decoded .mode64 [0x62, 0xF2, 0x7D, 0x28, 0x7B, 0xC0] =
        some (.vpbroadcastwYmm ⟨15, 0, 0, 0, false⟩) ∧
      decoded .mode64 [0x62, 0xF2, 0x7D, 0x48, 0x7C, 0xC0] =
        some (.vpbroadcastdZmm ⟨15, 0, 0, 0, false⟩) ∧
      decoded .mode64 [0x62, 0xF2, 0xFD, 0x48, 0x7C, 0xC0] =
        some (.vpbroadcastqZmm ⟨15, 0, 0, 0, false⟩) := by
  decide

/-- The two accepted W values on 7Ch, the accepted one on 7Ah and 7Bh, and W = 1. -/
theorem witness_WSelectsTheRowInMode64 :
    decoded .mode64 [0x62, 0xF2, 0x7D, 0x48, 0x7C, 0xC0] =
        some (.vpbroadcastdZmm ⟨15, 0, 0, 0, false⟩) ∧
      decoded .mode64 [0x62, 0xF2, 0xFD, 0x48, 0x7C, 0xC0] =
        some (.vpbroadcastqZmm ⟨15, 0, 0, 0, false⟩) ∧
      decoded .mode64 [0x62, 0xF2, 0x7D, 0x48, 0x7A, 0xC0] =
        some (.vpbroadcastbZmm ⟨15, 0, 0, 0, false⟩) ∧
      decoded .mode64 [0x62, 0xF2, 0x7D, 0x48, 0x7B, 0xC0] =
        some (.vpbroadcastwZmm ⟨15, 0, 0, 0, false⟩) ∧ (0xFD#8).getLsbD 7 = true := by
  decide

theorem witness_WIsIgnoredInMode32 :
    decoded .mode32 [0x62, 0xF2, 0xFD, 0x48, 0x7C, 0xC0] =
        some (.vpbroadcastdZmm ⟨15, 0, 0, 0, false⟩) ∧
      decoded .mode32 [0x62, 0xF2, 0x7D, 0x48, 0x7A, 0xC0] =
        some (.vpbroadcastbZmm ⟨15, 0, 0, 0, false⟩) ∧ (0xFD#8).getLsbD 7 = true := by
  decide

theorem witness_QuadwordBytesRunAsDwordInMode32 :
    run32.cfg.mode = .mode32 ∧ CodeAt run32 0x62 0xF2 0xFD 0x48 0x7C 0xC0 ∧
      (0xF2#8).extractLsb' 4 4 = 0b1111#4 ∧
      (∃ r ∈ tableRows64, r.width = .qword ∧ r.len = .zmm ∧
        r.matchesBytes [0x62, 0xF2, 0xFD, 0x48, 0x7C, 0xC0] = true) ∧
      ¬ ((0x48#8).getLsbD 7 = true ∧ (0x48#8).extractLsb' 0 3 = 0b000#3) := by
  decide

/-- vvvv at 0 in Mode64 and at 1110b in Mode32. -/
theorem witness_ReservedVvvvRaisesUd :
    CodeAt (codeState .mode32 0 [0x62, 0xF2, 0xF5, 0x48, 0x7C, 0xC0]) 0x62 0xF2 0xF5 0x48 0x7C 0xC0 ∧
    CodeAt (codeState .mode64 0 [0x62, 0xF2, 0x05, 0x48, 0x7C, 0xC0]) 0x62 0xF2 0x05 0x48 0x7C 0xC0 ∧
      (∃ r ∈ tableRows .mode64, r.matchesBytes [0x62, 0xF2, 0x05, 0x48, 0x7C, 0xC0] = true) ∧
      (∃ r ∈ tableRows .mode32, r.matchesBytes [0x62, 0xF2, 0xF5, 0x48, 0x7C, 0xC0] = true) ∧
      ¬ ((0x48#8).getLsbD 7 = true ∧ (0x48#8).extractLsb' 0 3 = 0b000#3) ∧
      (0x05#8).extractLsb' 3 4 ≠ 0b1111#4 ∧ (0xF5#8).extractLsb' 3 4 ≠ 0b1111#4 := by
  decide

/-- Bytes with a variation, and bytes with none. -/
theorem witness_UnsettledEncodingsAreRefused :
    CodeAt (codeState .mode64 0 [0x62, 0xF2, 0x7D, 0x48, 0x7C, 0x00]) 0x62 0xF2 0x7D 0x48 0x7C 0x00 ∧
      Variation .mode64 0x62 0xF2 0x7D 0x48 0x7C 0x00 ∧ CodeAt run64 0x62 0xF2 0x7D 0x48 0x7C 0xC0 ∧
      ¬ Variation .mode64 0x62 0xF2 0x7D 0x48 0x7C 0xC0 := by
  exact ⟨by decide, .inl (by decide), by decide, by simp [Variation]⟩

def noVl : State := cfgState { launchConfig with avx512vl := false } [0x62, 0xF2, 0x7D, 0x08, 0x7C, 0xC0]

def notEnabled : State := cfgState { launchConfig with osxsave := false } [0x62, 0xF2, 0x7D, 0x48, 0x7C, 0xC0]

def taskSwitched : State := cfgState { launchConfig with ts := true } [0x62, 0xF2, 0x7D, 0x48, 0x7C, 0xC0]

/-- A flag at 0, and state not enabled. -/
theorem witness_UnavailableInstructionRaisesUd :
    fetch noVl = .ok [0x62, 0xF2, 0x7D, 0x08, 0x7C, 0xC0] ∧
      decode noVl.cfg.mode [0x62, 0xF2, 0x7D, 0x08, 0x7C, 0xC0] =
        .ok (.vpbroadcastdXmm ⟨15, 0, 0, 0, false⟩, []) ∧
      (∃ f ∈ rowFeatures .dword .xmm, hasFeature noVl.cfg f = false) ∧
      fetch notEnabled = .ok [0x62, 0xF2, 0x7D, 0x48, 0x7C, 0xC0] ∧
      ¬ Avx512StateEnabled notEnabled.cfg := by
  exact ⟨rfl, rfl, by decide, rfl, by decide⟩

theorem witness_TaskSwitchedRaisesNm :
    fetch taskSwitched = .ok [0x62, 0xF2, 0x7D, 0x48, 0x7C, 0xC0] ∧
      decode taskSwitched.cfg.mode [0x62, 0xF2, 0x7D, 0x48, 0x7C, 0xC0] =
        .ok (.vpbroadcastdZmm ⟨15, 0, 0, 0, false⟩, []) ∧
      taskSwitched.cfg.ts = true ∧
      ¬ UdCondition (.vpbroadcastdZmm ⟨15, 0, 0, 0, false⟩) taskSwitched := by
  exact ⟨rfl, rfl, rfl, by decide⟩

/-- Each of the four outcomes occurs. -/
theorem witness_ChecksComeInOrder :
    ¬ WellFormed run32.cfg.mode (.vpbroadcastqXmm topOps32) ∧
      (WellFormed noVl.cfg.mode (.vpbroadcastdXmm topOps) ∧
        UdCondition (.vpbroadcastdXmm topOps) noVl) ∧
      (WellFormed taskSwitched.cfg.mode (.vpbroadcastdXmm topOps) ∧
        ¬ UdCondition (.vpbroadcastdXmm topOps) taskSwitched ∧ taskSwitched.cfg.ts = true) ∧
      (WellFormed run64.cfg.mode (.vpbroadcastdXmm topOps) ∧
        ¬ UdCondition (.vpbroadcastdXmm topOps) run64 ∧ run64.cfg.ts = false) := by
  decide

/-- Every row completes somewhere. -/
theorem witness_RowsNeedTheirCpuidFlags :
    ∀ ew ∈ [ElemWidth.byte, .word, .dword, .qword], ∀ l ∈ [VecLen.xmm, .ymm, .zmm],
      isNext (exec (mkInstr ew l topOps) run64) = true := by
  decide +kernel

/-- A completing instruction in each mode; it serves MaskedWriteBitByBit (at bits 0 and 511),
OnlyDestinationAndPcAreWritten and ExecutingTwiceIsExecutingOnce. -/
theorem witness_MaskedWriteBitByBit :
    isNext (exec (.vpbroadcastqXmm topOps) run64) = true ∧
      isNext (exec (.vpbroadcastdZmm topOps32) run32) = true ∧ 0 < 512 ∧ 511 < 512 := by
  decide +kernel

theorem witness_OnlyDestinationAndPcAreWritten :
    isNext (exec (.vpbroadcastwYmm topOps) run64) = true := by
  decide +kernel

theorem witness_ExecutingTwiceIsExecutingOnce :
    isNext (exec (.vpbroadcastbZmm topOps) run64) = true := by
  decide +kernel

/-- In each mode, the last address from which `pc + 6` is inside the space. -/
theorem witness_PcAdvancesBySix :
    isNext (step (codeState .mode64 0xFFFFFFFFFFFFFFF9 [0x62, 0xF2, 0x7D, 0x48, 0x7C, 0xC0])) = true ∧
      isNext (step (codeState .mode32 0xFFFFFFF9 [0x62, 0xF2, 0x7D, 0x48, 0x7C, 0xC0])) = true ∧
      0xFFFFFFFFFFFFFFF9 + 6 < 2 ^ 64 ∧ 0xFFFFFFF9 + 6 < 2 ^ 32 := by
  decide +kernel

/-- In each mode, the six bytes end exactly at the top. -/
theorem witness_PcAtTheTopBecomesZero :
    isNext (step (codeState .mode64 0xFFFFFFFFFFFFFFFA [0x62, 0xF2, 0x7D, 0x48, 0x7C, 0xC0])) = true ∧
      isNext (step (codeState .mode32 0xFFFFFFFA [0x62, 0xF2, 0x7D, 0x48, 0x7C, 0xC0])) = true ∧
      0xFFFFFFFFFFFFFFFA + 6 = 2 ^ 64 ∧ 0xFFFFFFFA + 6 = 2 ^ 32 := by
  decide +kernel

/-- Six bytes that decode, six that do not, an undefined last byte, and the first `pc` that wraps. -/
theorem witness_FetchReadsSixBytes :
    (CodeAt run64 0x62 0xF2 0x7D 0x48 0x7C 0xC0 ∧
      decoded .mode64 [0x62, 0xF2, 0x7D, 0x48, 0x7C, 0xC0] ≠ none) ∧
      (CodeAt (codeState .mode64 0 [0x62, 0xF2, 0x7D, 0x48, 0x7C, 0x00]) 0x62 0xF2 0x7D 0x48 0x7C 0x00 ∧
        unsettledItem .mode64 [0x62, 0xF2, 0x7D, 0x48, 0x7C, 0x00] ≠ none) ∧
      (let s := codeState .mode64 0x3000 [0x62, 0xF2, 0x7D, 0x48, 0x7C]
       s.pc.toNat + 5 < 2 ^ s.cfg.mode.pcBits ∧ s.mem.read (s.pc.toNat + 5) = none ∧
        ∀ j, j < 5 → s.mem.read (s.pc.toNat + j) ≠ none) ∧
      2 ^ Mode.mode32.pcBits ≤ (codeState .mode32 0xFFFFFFFB []).pc.toNat + 5 := by
  decide

theorem witness_ProgramTextAndParametersAreFixed : ∃ t, StepsTo 1 run64 t :=
  ⟨_, _, rfl, rfl⟩

/-- One instruction at 0, with `cfg.END = 6`. -/
theorem witness_RunEndsAfterNSteps :
    let s := cfgState { launchConfig with endPc := 6 } [0x62, 0xF2, 0x7D, 0x48, 0x7C, 0xC0]
    (∃ t, StepsTo 1 s t) ∧ 1 ≤ 1 ∧ s.pc.toNat + 6 * 1 < 2 ^ s.cfg.mode.pcBits ∧
      s.cfg.endPc.toNat = s.pc.toNat + 6 * 1 :=
  ⟨⟨_, _, rfl, rfl⟩, by decide⟩

/-- Merging and zeroing under a zero mask. -/
theorem witness_AllZeroMaskKeepsOrClears :
    (∀ z ∈ [true, false], isNext (exec (.vpbroadcastbZmm ⟨15, 1, 2, 7, z⟩) run64) = true) ∧
      ∀ j, j < 64 → (readK run64 7).getLsbD j = false := by
  decide +kernel

/-- No writemask, and zeroing. -/
theorem witness_OldDestinationMattersOnlyUnderMerging :
    isNext (exec (.vpbroadcastbXmm ⟨15, 1, 2, 0, false⟩) run64) = true ∧
      isNext (exec (.vpbroadcastbXmm ⟨15, 1, 2, 3, true⟩) run64) = true := by
  decide +kernel

/-- Two states that differ in the unread bits: the high bits of the source, a mask bit at KL. -/
theorem witness_UnreadBitsDoNotInfluenceTheResult :
    let o : EvexOperands := ⟨15, 1, 2, 3, false⟩
    let s := vectorState .mode64 [] 2 0x55 3 0x0F
    let s' := vectorState .mode64 [] 2 0xFF55 3 0x1000F
    s'.cfg = s.cfg ∧ (readGpr s' o.src).extractLsb' 0 8 = (readGpr s o.src).extractLsb' 0 8 ∧
      (∀ j, j < 16 → (readK s' o.aaa).getLsbD j = (readK s o.aaa).getLsbD j) ∧
      readZmm s' o.dst = readZmm s o.dst ∧ isNext (exec (.vpbroadcastbXmm o) s) = true ∧ s' ≠ s := by
  decide +kernel

theorem witness_FaultsAreUdOrNmAtPc :
    faultOf (step noVl) = some (.ud 0) ∧ faultOf (step taskSwitched) = some (.nm 0) := by
  decide +kernel

theorem witness_EveryStepKeepsTheInvariant :
    Inv run64 ∧ isNext (step run64) = true ∧ Inv run32 ∧ isNext (step run32) = true := by
  decide +kernel

theorem witness_StepRunsTheDecodedInstruction :
    fetch run32 = .ok [0x62, 0xF2, 0xFD, 0x48, 0x7C, 0xC0] ∧
      decode run32.cfg.mode [0x62, 0xF2, 0xFD, 0x48, 0x7C, 0xC0] =
        .ok (.vpbroadcastdZmm ⟨15, 0, 0, 0, false⟩, []) := by
  exact ⟨rfl, rfl⟩

/-- At the last `pc` that does not wrap. -/
theorem witness_PlacedInstructionRunsNext :
    (codeState .mode32 0xFFFFFFFA []).pc.toNat + 5 < 2 ^ Mode.mode32.pcBits ∧
      decode .mode32 (tableBytes 48 0x62F27D487CC0) =
        .ok (.vpbroadcastdZmm ⟨15, 0, 0, 0, false⟩, []) := by
  exact ⟨by decide, rfl⟩

end Sys2Proof.Tests
end

section
/-! The CPUID cells of the twelve rows (00_scope.md R2): every flag of the cell is 1 where the
instruction completes, then the flags by vector length and by element width, then the twelve rows. -/

namespace Sys2Proof.Machine

/-- A missing flag is one of the #UD conditions, which a completing instruction did not meet. -/
theorem hasFeature_of_exec_next {i : Instr} {s t : State} (h : exec i s = .next t) {f : Feature}
    (hf : f ∈ rowFeatures i.width i.len) : hasFeature s.cfg f = true := by
  obtain ⟨-, hud, -, -⟩ := exec_next h
  by_contra hoff
  exact hud (.inr (.inl ⟨f, hf, Bool.eq_false_iff.mpr hoff⟩))

theorem avx512vl_mem_rowFeatures (ew : ElemWidth) {l : VecLen} (hl : l = .xmm ∨ l = .ymm) :
    .avx512vl ∈ rowFeatures ew l := by
  rcases hl with rfl | rfl <;> simp [rowFeatures]

theorem avx512bw_mem_rowFeatures {ew : ElemWidth} (l : VecLen) (hw : ew = .byte ∨ ew = .word) :
    .avx512bw ∈ rowFeatures ew l := by
  rcases hw with rfl | rfl <;> simp [rowFeatures]

theorem avx512f_mem_rowFeatures {ew : ElemWidth} (l : VecLen) (hw : ew = .dword ∨ ew = .qword) :
    .avx512f ∈ rowFeatures ew l := by
  rcases hw with rfl | rfl <;> simp [rowFeatures]

section
variable {i : Instr} {s t : State} (h : exec i s = .next t)
include h

/-- The 128-bit and 256-bit rows need VL. -/
theorem avx512vl_of_exec_next (hl : i.len = .xmm ∨ i.len = .ymm) : s.cfg.avx512vl = true :=
  hasFeature_of_exec_next h (avx512vl_mem_rowFeatures i.width hl)

/-- The byte and word rows need BW, at every vector length. -/
theorem avx512bw_of_exec_next (hw : i.width = .byte ∨ i.width = .word) : s.cfg.avx512bw = true :=
  hasFeature_of_exec_next h (avx512bw_mem_rowFeatures i.len hw)

/-- The doubleword and quadword rows need F, at every vector length. -/
theorem avx512f_of_exec_next (hw : i.width = .dword ∨ i.width = .qword) : s.cfg.avx512f = true :=
  hasFeature_of_exec_next h (avx512f_mem_rowFeatures i.len hw)

end

/-- Settles O28: each row's cell is read off its vector length and its element width. -/
theorem rowsNeedTheirCpuidFlags : Obligations.RowsNeedTheirCpuidFlags := by
  intro o s t
  refine ⟨?bXmm, ?bYmm, ?bZmm, ?wXmm, ?wYmm, ?wZmm, ?dXmm, ?dYmm, ?dZmm, ?qXmm, ?qYmm, ?qZmm⟩ <;>
    intro h
  case bXmm => exact ⟨avx512vl_of_exec_next h (.inl rfl), avx512bw_of_exec_next h (.inl rfl)⟩
  case bYmm => exact ⟨avx512vl_of_exec_next h (.inr rfl), avx512bw_of_exec_next h (.inl rfl)⟩
  case bZmm => exact avx512bw_of_exec_next h (.inl rfl)
  case wXmm => exact ⟨avx512vl_of_exec_next h (.inl rfl), avx512bw_of_exec_next h (.inr rfl)⟩
  case wYmm => exact ⟨avx512vl_of_exec_next h (.inr rfl), avx512bw_of_exec_next h (.inr rfl)⟩
  case wZmm => exact avx512bw_of_exec_next h (.inr rfl)
  case dXmm => exact ⟨avx512vl_of_exec_next h (.inl rfl), avx512f_of_exec_next h (.inl rfl)⟩
  case dYmm => exact ⟨avx512vl_of_exec_next h (.inr rfl), avx512f_of_exec_next h (.inl rfl)⟩
  case dZmm => exact avx512f_of_exec_next h (.inl rfl)
  case qXmm => exact ⟨avx512vl_of_exec_next h (.inl rfl), avx512f_of_exec_next h (.inr rfl)⟩
  case qYmm => exact ⟨avx512vl_of_exec_next h (.inr rfl), avx512f_of_exec_next h (.inr rfl)⟩
  case qZmm => exact avx512f_of_exec_next h (.inr rfl)

end Sys2Proof.Machine
end

section
/-! The fetch and decode part of a step (20_memory.md R31): what the step answers at each outcome of
the two, and at which address the fetch stops. -/

namespace Sys2Proof.Machine

/-- Reading stops at the first undefined address. -/
theorem readBytes_error {m : Memory} {a n k : Nat} (hk : k < n) (hnone : m.read (a + k) = none)
    (hbelow : ∀ j, j < k → m.read (a + j) ≠ none) : readBytes m a n = .error (a + k) := by
  induction k generalizing a n with
  | zero =>
    obtain ⟨n, rfl⟩ := Nat.exists_eq_succ_of_ne_zero (Nat.ne_of_gt hk)
    simp only [Nat.add_zero] at hnone ⊢
    simp [readBytes, hnone]
  | succ k ih =>
    obtain ⟨n, rfl⟩ := Nat.exists_eq_succ_of_ne_zero (Nat.ne_of_gt (Nat.zero_lt_of_lt hk))
    have hshift (j : Nat) : a + (j + 1) = a + 1 + j := by omega
    obtain ⟨b, hb⟩ := Option.ne_none_iff_exists'.mp (hbelow 0 (Nat.succ_pos k))
    have htail : readBytes m (a + 1) n = .error (a + 1 + k) := by
      refine ih (Nat.lt_of_succ_lt_succ hk) (hshift k ▸ hnone) fun j hj => ?_
      exact hshift j ▸ hbelow (j + 1) (Nat.succ_lt_succ hj)
    simp only [Nat.add_zero] at hb
    simp [readBytes, hb, htail, hshift k]

variable {s : State}

theorem fetch_wraps (h : 2 ^ s.cfg.mode.pcBits ≤ s.pc.toNat + 5) :
    fetch s = .error .fetchWraps := by
  simp [fetch, h]

theorem fetch_undefined (hlt : s.pc.toNat + 5 < 2 ^ s.cfg.mode.pcBits) {k : Nat} (hk : k < 6)
    (hnone : s.mem.read (s.pc.toNat + k) = none)
    (hbelow : ∀ j, j < k → s.mem.read (s.pc.toNat + j) ≠ none) :
    fetch s = .error (.codeUndefined (s.pc.toNat + k)) := by
  simp [fetch, Nat.not_le.mpr hlt, readBytes_error hk hnone hbelow]

theorem step_of_fetch_error {r : Refusal} (h : fetch s = .error r) : step s = .refused r := by
  simp [step, h]

theorem step_of_decode_error {bs : List Byte} {u : Unsettled} (hf : fetch s = .ok bs)
    (hd : decode s.cfg.mode bs = .error u) : step s = .refused (.unsettledEncoding u) := by
  simp [step, hf, hd]

theorem step_of_decode_ok {bs rest : List Byte} {i : Instr} (hf : fetch s = .ok bs)
    (hd : decode s.cfg.mode bs = .ok (i, rest)) : step s = exec i s := by
  simp [step, hf, hd]

/-- Settles O33: the fetch answers the six bytes, the first undefined address or the wrap, and the
step follows it. -/
theorem fetchReadsSixBytes : Obligations.FetchReadsSixBytes := by
  intro s
  refine ⟨fun b0 b1 b2 b3 b4 b5 hcode => ⟨fun i rest hd => ?_, fun u hd => ?_⟩,
    fun hlt k hk hnone hbelow => ?_, fun hwrap => ?_⟩
  · exact step_of_decode_ok (fetch_codeAt hcode) hd
  · exact step_of_decode_error (fetch_codeAt hcode) hd
  · exact step_of_fetch_error (fetch_undefined hlt hk hnone hbelow)
  · exact step_of_fetch_error (fetch_wraps hwrap)

end Sys2Proof.Machine
end

section
/-! What a run of any length keeps: the induction over the steps, once, and the program text and the
parameters by it (20_memory.md R39, 10_state.md R18). -/

namespace Sys2Proof.Machine

/-- A property every step keeps is kept by a run of any length. -/
theorem StepsTo.preserves {P : State → Prop} (hstep : ∀ u v, step u = .next v → P u → P v) {n : Nat}
    {s t : State} (hrun : StepsTo n s t) (hs : P s) : P t := by
  induction n generalizing s with
  | zero => exact hrun ▸ hs
  | succ n ih =>
    obtain ⟨u, hsu, hut⟩ := hrun
    exact ih hut (hstep s u hsu hs)

/-- One step keeps the program text and the parameters: it is a register effect. -/
theorem step_next_mem_cfg {s t : State} (h : step s = .next t) : t.mem = s.mem ∧ t.cfg = s.cfg := by
  obtain ⟨_, i, _, -, -, hexec⟩ := step_next h
  obtain ⟨-, -, -, rfl⟩ := exec_next hexec
  exact ⟨rfl, rfl⟩

/-- Settles O34: each state of the run has the text and the parameters of the first. -/
theorem programTextAndParametersAreFixed : Obligations.ProgramTextAndParametersAreFixed := by
  intro n s t hrun
  refine hrun.preserves (P := fun u => u.mem = s.mem ∧ u.cfg = s.cfg) ?_ ⟨rfl, rfl⟩
  rintro u v huv ⟨hmem, hcfg⟩
  obtain ⟨hmem', hcfg'⟩ := step_next_mem_cfg huv
  exact ⟨hmem'.trans hmem, hcfg'.trans hcfg⟩

end Sys2Proof.Machine
end

section
/-! The decoder on six given bytes (30_encoding.md R54, R58): what it answers, and when each byte is
settled. -/

namespace Sys2Proof

variable {m : Mode} {b0 b1 b2 b3 b4 b5 : Byte}

/-- The decoder accepts six bytes where they are settled; the instruction is read off them. -/
theorem decode_six_ok_iff {rest rest' : List Byte} {i : Instr} :
    decode m (b0 :: b1 :: b2 :: b3 :: b4 :: b5 :: rest) = .ok (i, rest') ↔
      unsettled m b0 b1 b2 b3 b4 b5 = none ∧ rest' = rest ∧
        i = mkInstr (elemWidthOf m b2 b4) (vecLenOf b3) (operandsOf m b1 b2 b3 b5) := by
  constructor
  · intro h
    obtain ⟨_, _, _, _, _, _, hbs, hu, hi⟩ := decode_ok_iff.mp h
    simp only [List.cons.injEq] at hbs
    obtain ⟨rfl, rfl, rfl, rfl, rfl, rfl, rfl⟩ := hbs
    exact ⟨hu, rfl, hi⟩
  · rintro ⟨hu, rfl, rfl⟩
    exact decode_ok_iff.mpr ⟨_, _, _, _, _, _, rfl, hu, rfl⟩

/-- A chain of refusals answers none where its first condition fails and the rest answers none. -/
theorem ite_some_eq_none_iff {c : Prop} [Decidable c] {u : Unsettled} {r : Option Unsettled} :
    (if c then some u else r) = none ↔ ¬ c ∧ r = none := by
  by_cases hc : c <;> simp [hc]

/-- Byte 1 is settled where no item f, g, k, l or m of R54 occurs in it. -/
theorem p0Reason_none_iff :
    p0Reason m b1 = none ↔
      b1.extractLsb' 2 2 = 0b00#2 ∧ b1.extractLsb' 0 2 = 0b10#2 ∧ b1.getLsbD 6 = true ∧
        (m = .mode32 → b1.getLsbD 7 = true ∧ b1.getLsbD 5 = true ∧ b1.getLsbD 4 = true) := by
  cases m <;> simp only [p0Reason, ite_some_eq_none_iff] <;> simp [and_assoc]

/-- Byte 2 is settled where no item g or m occurs in it; neither W nor vvvv matters. -/
theorem p1Reason_none_iff :
    p1Reason b2 = none ↔ b2.getLsbD 2 = true ∧ b2.extractLsb' 0 2 = 0b01#2 := by
  simp [p1Reason, ite_some_eq_none_iff]

/-- Byte 3 is settled where no item b, c, d, e or l occurs in it. -/
theorem p2Reason_none_iff :
    p2Reason m b3 = none ↔
      b3.getLsbD 4 = false ∧ b3.getLsbD 3 = true ∧ b3.extractLsb' 5 2 ≠ 0b11#2 ∧
        ¬ (b3.getLsbD 7 = true ∧ b3.extractLsb' 0 3 = 0b000#3) := by
  cases m <;> simp [p2Reason, ite_some_eq_none_iff]

/-- Six bytes are settled exactly where none of the variations a to m occurs (R54). -/
theorem unsettled_none_iff_not_variation :
    unsettled m b0 b1 b2 b3 b4 b5 = none ↔ ¬ Machine.Variation m b0 b1 b2 b3 b4 b5 := by
  rw [unsettled_none_iff, p0Reason_none_iff, p1Reason_none_iff, p2Reason_none_iff,
    opcodeReason_none_iff]
  simp only [Machine.Variation]
  -- both sides now name the same conditions on the same fields
  grind

theorem EvexOperands.namesRegisters_iff {o : EvexOperands} :
    o.namesRegisters m = true ↔ o.dst.toNat < m.nvec ∧ o.src.toNat < m.ngpr := by
  simp [EvexOperands.namesRegisters]

/-- In each mode, settled bytes decode to a well-formed instruction (R46, R47, R52, R54 d). -/
theorem wellFormed_of_unsettled_none (h : unsettled m b0 b1 b2 b3 b4 b5 = none) :
    WellFormed m
      (mkInstr (elemWidthOf m b2 b4) (vecLenOf b3) (operandsOf m b1 b2 b3 b5)) := by
  obtain ⟨-, -, -, h3, -⟩ := (unsettled_none_iff ..).mp h
  have hzero : (operandsOf m b1 b2 b3 b5).zeroingHasMask = true := (encodeP2_decoded m b3 h3).2
  have hregs : (operandsOf m b1 b2 b3 b5).namesRegisters m = true := by
    cases m with
    | mode64 => exact EvexOperands.namesRegisters_iff.mpr ⟨BitVec.isLt _, BitVec.isLt _⟩
    | mode32 => exact EvexOperands.namesRegisters_iff.mpr (registers_lt_mode32 b1 b5)
  have hwidth : (elemWidthOf m b2 b4).encodable m = true := by
    cases m with
    | mode64 => rfl
    | mode32 => simp only [elemWidthOf]; split_ifs <;> rfl
  simp [WellFormed, Instr.wellFormed, EvexOperands.wellFormed, hzero, hregs, hwidth]

end Sys2Proof
end

section
/-! What L'L and bit W of byte 2 select (30_encoding.md R50 to R52). -/

namespace Sys2Proof

variable {m : Mode} {b0 b1 b2 b3 b4 b5 : Byte}

/-- The vector length of each accepted value of L'L (R50). -/
theorem vecLenOf_bits :
    (b3.extractLsb' 5 2 = 0b00#2 → (vecLenOf b3).bits = 128) ∧
      (b3.extractLsb' 5 2 = 0b01#2 → (vecLenOf b3).bits = 256) ∧
      (b3.extractLsb' 5 2 = 0b10#2 → (vecLenOf b3).bits = 512) := by
  refine ⟨fun h => ?_, fun h => ?_, fun h => ?_⟩ <;> simp [vecLenOf, h, VecLen.bits]

/-- L'L = 11b is item c of R54. -/
theorem decode_error_of_vectorLength11 {rest : List Byte} (h : b3.extractLsb' 5 2 = 0b11#2) :
    ∃ u, decode m (b0 :: b1 :: b2 :: b3 :: b4 :: b5 :: rest) = .error u := by
  refine decode_error_of_unsettled fun hu => ?_
  obtain ⟨-, -, -, h3, -⟩ := (unsettled_none_iff ..).mp hu
  obtain ⟨-, -, hL, -⟩ := p2Reason_none_iff.mp h3
  exact hL h

/-- Settled bytes with opcode 7Ah or 7Bh have W = 0 (R51, R52). -/
theorem w_eq_false_of_unsettled_none (hu : unsettled m b0 b1 b2 b3 b4 b5 = none)
    (h4 : b4 = 0x7A#8 ∨ b4 = 0x7B#8) : b2.getLsbD 7 = false := by
  obtain ⟨-, -, -, -, h45⟩ := (unsettled_none_iff ..).mp hu
  obtain ⟨-, -, hW⟩ := (opcodeReason_none_iff ..).mp h45
  exact hW (by rcases h4 with rfl | rfl <;> decide)

/-- W = 1 with opcode 7Ah or 7Bh is item h of R54, in both modes. -/
theorem decode_error_of_wOnByteOrWord {rest : List Byte} (h4 : b4 = 0x7A#8 ∨ b4 = 0x7B#8)
    (hW : b2.getLsbD 7 = true) :
    ∃ u, decode m (b0 :: b1 :: b2 :: b3 :: b4 :: b5 :: rest) = .error u := by
  refine decode_error_of_unsettled fun hu => ?_
  exact Bool.false_ne_true ((w_eq_false_of_unsettled_none hu h4).symm.trans hW)

/-- With opcode 7Ch no refusal looks at W. -/
theorem opcodeReason_7C (b2 b2' b5 : Byte) :
    opcodeReason b2 0x7C#8 b5 = opcodeReason b2' 0x7C#8 b5 := by
  simp [opcodeReason]

section
variable (b2)

@[simp] theorem p1Reason_setW : p1Reason (b2 ||| 0x80#8) = p1Reason b2 := by
  revert b2; decide +kernel

@[simp] theorem p1Reason_clearW : p1Reason (b2 &&& 0x7F#8) = p1Reason b2 := by
  revert b2; decide +kernel

@[simp] theorem vvvv_setW : (b2 ||| 0x80#8).extractLsb' 3 4 = b2.extractLsb' 3 4 := by
  revert b2; decide +kernel

@[simp] theorem vvvv_clearW : (b2 &&& 0x7F#8).extractLsb' 3 4 = b2.extractLsb' 3 4 := by
  revert b2; decide +kernel

end

/-- On opcode 7Ch bytes are settled, or refused for the same reason, whatever W is. -/
theorem unsettled_setW :
    unsettled m b0 b1 (b2 ||| 0x80#8) b3 0x7C#8 b5 = unsettled m b0 b1 b2 b3 0x7C#8 b5 := by
  simp [unsettled, opcodeReason_7C (b2 ||| 0x80#8) b2]

theorem unsettled_clearW :
    unsettled m b0 b1 (b2 &&& 0x7F#8) b3 0x7C#8 b5 = unsettled m b0 b1 b2 b3 0x7C#8 b5 := by
  simp [unsettled, opcodeReason_7C (b2 &&& 0x7F#8) b2]

@[simp] theorem operandsOf_setW :
    operandsOf m b1 (b2 ||| 0x80#8) b3 b5 = operandsOf m b1 b2 b3 b5 := by
  simp [operandsOf]

@[simp] theorem operandsOf_clearW :
    operandsOf m b1 (b2 &&& 0x7F#8) b3 b5 = operandsOf m b1 b2 b3 b5 := by
  simp [operandsOf]

@[simp] theorem elemWidthOf_7C_mode64 :
    elemWidthOf .mode64 b2 0x7C#8 = if b2.getLsbD 7 then .qword else .dword := rfl

@[simp] theorem elemWidthOf_7C_mode32 : elemWidthOf .mode32 b2 0x7C#8 = .dword := rfl

theorem elemWidthOf_mode32_ne_qword : elemWidthOf .mode32 b2 b4 ≠ .qword := by
  simp only [elemWidthOf]
  split_ifs <;> decide

/-- Two rows with operands are one instruction only where width, length and operands agree. -/
theorem mkInstr_inj {w w' : ElemWidth} {l l' : VecLen} {o o' : EvexOperands} :
    mkInstr w l o = mkInstr w' l' o' ↔ w = w' ∧ l = l' ∧ o = o' := by
  constructor
  · intro h
    exact ⟨by simpa using congrArg Instr.width h, by simpa using congrArg Instr.len h,
      by simpa using congrArg Instr.ops h⟩
  · rintro ⟨rfl, rfl, rfl⟩
    rfl

/-- Settles O19: L'L of a settled byte 3 is read by `vecLenOf`, and the count is a quotient by
definition. -/
theorem vectorLengthFieldIsRead : Obligations.VectorLengthFieldIsRead := by
  intro m b0 b1 b2 b3 b4 b5 rest
  refine ⟨decode_error_of_vectorLength11, fun i rest' h => ?_⟩
  obtain ⟨-, -, rfl⟩ := decode_six_ok_iff.mp h
  obtain ⟨h128, h256, h512⟩ := vecLenOf_bits (b3 := b3)
  have hcount (w : ElemWidth) (hw : elemWidthOf m b2 b4 = w) :
      Machine.elementCount (elemWidthOf m b2 b4) (vecLenOf b3) = (vecLenOf b3).bits / w.bits :=
    hw ▸ rfl
  simp only [mkInstr_len, mkInstr_width]
  exact ⟨h128, h256, h512, hcount .byte, hcount .word, hcount .dword, hcount .qword⟩

/-- Settles O20: on 7Ch W reaches the element width alone, and on 7Ah and 7Bh it is 0. -/
theorem wSelectsTheRowInMode64 : Obligations.WSelectsTheRowInMode64 := by
  refine ⟨fun b0 b1 b2 b3 b5 rest l o => ?_, fun b0 b1 b2 b3 b4 b5 rest rest' i h => ?_,
    fun _ _ _ _ _ _ _ h4 hW => decode_error_of_wOnByteOrWord h4 hW⟩
  · simp [decode_six_ok_iff, unsettled_clearW, unsettled_setW, mkInstr_inj]
  · obtain ⟨hu, -, rfl⟩ := decode_six_ok_iff.mp h
    rw [mkInstr_width]
    refine ⟨?_, ?_, ?_⟩
    · rintro rfl
      exact ⟨rfl, w_eq_false_of_unsettled_none hu (.inl rfl)⟩
    · rintro rfl
      exact ⟨rfl, w_eq_false_of_unsettled_none hu (.inr rfl)⟩
    · rintro rfl
      rfl

/-- Settles O21: in Mode32 W reaches nothing on 7Ch. -/
theorem wIsIgnoredInMode32 : Obligations.WIsIgnoredInMode32 := by
  refine ⟨fun b0 b1 b2 b3 b5 rest => ?_, fun b0 b1 b2 b3 b5 rest rest' i h => ?_,
    fun bs rest i h => ?_, fun _ _ _ _ _ _ _ _ h4 hW => decode_error_of_wOnByteOrWord h4 hW⟩
  · simp [decode, unsettled_clearW, unsettled_setW]
  · obtain ⟨-, -, rfl⟩ := decode_six_ok_iff.mp h
    simp
  · obtain ⟨_, _, _, _, _, _, -, -, rfl⟩ := decode_ok_iff.mp h
    rw [mkInstr_width]
    exact elemWidthOf_mode32_ne_qword

end Sys2Proof
end

section
/-! The two outcomes of a step on six bytes that are no instruction's effect: #UD for a reserved vvvv
(30_encoding.md R53), and the refusal of an unsettled encoding (R54). -/

namespace Sys2Proof

variable {m : Mode} {r : TableRow}

/-- A match is an equation at each byte. -/
theorem TableRow.matchesBytes_getD {bs : List Byte} (h : r.matchesBytes bs = true) (k : Nat) :
    bs.getD k 0#8 &&& r.mask.getD k 0#8 = r.pattern.getD k 0#8 := by
  simp only [TableRow.matchesBytes, beq_iff_eq] at h
  rw [← h]
  simp only [List.getD_eq_getElem?_getD, List.getElem?_zipWith]
  cases bs[k]? <;> cases r.mask[k]? <;> simp

/-! Byte by byte, the bits the opcode table fixes are the ones the decoder wants there (R44). -/

theorem byte0_of_row : ∀ r ∈ tableRows m, ∀ b : Byte,
    b &&& r.mask.getD 0 0#8 = r.pattern.getD 0 0#8 → b = 0x62#8 := by
  cases m <;> decide +kernel

theorem p0Reason_of_row : ∀ r ∈ tableRows m, ∀ b : Byte,
    b &&& r.mask.getD 1 0#8 = r.pattern.getD 1 0#8 → p0Reason m b = none := by
  cases m <;> decide +kernel

/-- W is fixed at 0 in the rows of opcodes 7Ah and 7Bh. -/
theorem p1_of_row : ∀ r ∈ tableRows m, ∀ b : Byte,
    b &&& r.mask.getD 2 0#8 = r.pattern.getD 2 0#8 →
      p1Reason b = none ∧ (r.width.opcode ≠ 0x7C#8 → b.getLsbD 7 = false) := by
  cases m <;> decide +kernel

/-- The rows leave z and aaa free, so item d of R54 is apart. -/
theorem p2Reason_of_row : ∀ r ∈ tableRows m, ∀ b : Byte,
    b &&& r.mask.getD 3 0#8 = r.pattern.getD 3 0#8 →
      ¬ (b.getLsbD 7 = true ∧ b.extractLsb' 0 3 = 0b000#3) → p2Reason m b = none := by
  cases m <;> decide +kernel

theorem byte4_of_row : ∀ r ∈ tableRows m, ∀ b : Byte,
    b &&& r.mask.getD 4 0#8 = r.pattern.getD 4 0#8 → b = r.width.opcode := by
  cases m <;> decide +kernel

theorem byte5_of_row : ∀ r ∈ tableRows m, ∀ b : Byte,
    b &&& r.mask.getD 5 0#8 = r.pattern.getD 5 0#8 → b.extractLsb' 6 2 = 0b11#2 := by
  cases m <;> decide +kernel

theorem ElemWidth.opcode_cases (w : ElemWidth) :
    w.opcode = 0x7A#8 ∨ w.opcode = 0x7B#8 ∨ w.opcode = 0x7C#8 := by
  cases w <;> decide

/-- Bytes that match a row of the mode's table are settled, item d apart (R44, R54). -/
theorem unsettled_none_of_row {b0 b1 b2 b3 b4 b5 : Byte} (hr : r ∈ tableRows m)
    (hmatch : r.matchesBytes [b0, b1, b2, b3, b4, b5] = true)
    (hz : ¬ (b3.getLsbD 7 = true ∧ b3.extractLsb' 0 3 = 0b000#3)) :
    unsettled m b0 b1 b2 b3 b4 b5 = none := by
  have hbits := TableRow.matchesBytes_getD hmatch
  obtain ⟨hp1, hW⟩ := p1_of_row r hr b2 (hbits 2)
  have h4 := byte4_of_row r hr b4 (hbits 4)
  refine (unsettled_none_iff ..).mpr ⟨byte0_of_row r hr b0 (hbits 0),
    p0Reason_of_row r hr b1 (hbits 1), hp1, p2Reason_of_row r hr b3 (hbits 3) hz,
    (opcodeReason_none_iff ..).mpr ⟨?_, byte5_of_row r hr b5 (hbits 5), ?_⟩⟩
  · exact h4 ▸ r.width.opcode_cases
  · exact h4 ▸ hW

namespace Machine

variable {s : State} {i : Instr}

/-- A #UD condition of an encodable instruction raises #UD at the instruction's address. -/
theorem exec_ud (hw : WellFormed s.cfg.mode i) (hud : UdCondition i s) :
    exec i s = .fault (.ud s.pc) := by
  obtain ⟨hnw, -⟩ | ⟨-, -, h⟩ | ⟨-, hnud, -⟩ | ⟨-, hnud, -⟩ := exec_cases i s
  · exact absurd hw hnw
  · exact h
  · exact absurd hud hnud
  · exact absurd hud hnud

/-- No meaning answers the refusal of an encoding: that one is the decoder's. -/
theorem exec_ne_unsettledEncoding (u : Unsettled) :
    exec i s ≠ .refused (.unsettledEncoding u) := by
  intro hu
  obtain ⟨-, h⟩ | ⟨-, -, h⟩ | ⟨-, -, -, h⟩ | ⟨-, -, -, h⟩ := exec_cases i s <;>
    simp [h] at hu

variable {b0 b1 b2 b3 b4 b5 : Byte}

/-- A step on settled bytes is the execution of the instruction read off them. -/
theorem step_of_settled (hcode : CodeAt s b0 b1 b2 b3 b4 b5)
    (hu : unsettled s.cfg.mode b0 b1 b2 b3 b4 b5 = none) :
    step s = exec (mkInstr (elemWidthOf s.cfg.mode b2 b4) (vecLenOf b3)
      (operandsOf s.cfg.mode b1 b2 b3 b5)) s :=
  step_of_decode_ok (fetch_codeAt hcode) (decode_six_ok_iff.mpr ⟨hu, rfl, rfl⟩)

/-- A step is refused as an encoding exactly where its bytes are not settled. -/
theorem step_unsettledEncoding_iff (hcode : CodeAt s b0 b1 b2 b3 b4 b5) :
    (∃ u, step s = .refused (.unsettledEncoding u)) ↔
      unsettled s.cfg.mode b0 b1 b2 b3 b4 b5 ≠ none := by
  constructor
  · rintro ⟨u, hstep⟩ hu
    exact exec_ne_unsettledEncoding u ((step_of_settled hcode hu).symm.trans hstep)
  · intro hu
    obtain ⟨u, hd⟩ := decode_error_of_unsettled (rest := []) hu
    exact ⟨u, step_of_decode_error (fetch_codeAt hcode) hd⟩

/-- Settles O23: the bytes decode to an instruction whose vvvv is not 1111b, and its meaning
raises #UD. -/
theorem reservedVvvvRaisesUd : Obligations.ReservedVvvvRaisesUd := by
  rintro s b0 b1 b2 b3 b4 b5 hcode ⟨r, hr, hmatch⟩ hz hvvvv
  have hu := unsettled_none_of_row hr hmatch hz
  rw [step_of_settled hcode hu]
  refine exec_ud (wellFormed_of_unsettled_none hu) (.inl ?_)
  rw [mkInstr_ops]
  exact hvvvv

/-- Settles O24: a variation is what keeps six bytes from being settled. -/
theorem unsettledEncodingsAreRefused : Obligations.UnsettledEncodingsAreRefused := by
  intro s b0 b1 b2 b3 b4 b5 hcode
  rw [step_unsettledEncoding_iff hcode, ne_eq, unsettled_none_iff_not_variation, not_not]

end Machine

end Sys2Proof
end

section
/-! What an instruction that completes leaves: the masked write bit by bit (40_vpbroadcast_gpr.md R62,
R63), the frame (R64) and the program counter (R67). -/

namespace Sys2Proof.Machine

variable {i : Instr} {s t : State}

/-- A completing instruction meets the result the rules give for its row. -/
theorem exec_next_result (h : exec i s = .next t) :
    BroadcastResult i.width.bits (elementCount i.width i.len) i.len.bits i.ops s t := by
  obtain ⟨-, -, -, rfl⟩ := exec_next h
  exact broadcastEffect_result i.width i.len i.ops s

/-- Bit `b` of the new destination is bit `b mod ew` of listed element `b / ew` below VL, and 0 from
VL up. -/
theorem getLsbD_readZmm_of_exec_next (h : exec i s = .next t) {b : Nat} (hb : b < 512) :
    (readZmm t i.ops.dst).getLsbD b =
      (decide (b < i.len.bits) &&
        (listedElement i.width.bits i.ops s (b / i.width.bits)).getLsbD (b % i.width.bits)) := by
  obtain ⟨-, -, -, rfl⟩ := exec_next h
  rw [broadcastEffect, readZmm_advancePc, readZmm_writeZmm_same, broadcast,
    getLsbD_broadcastLoop _ _ _ _ _ _ (elemWidth_bits_pos _) hb, elementCount_mul_bits,
    newElement_eq_listedElement]

/-- The listed element that bit `b` of a register belongs to, at that bit. -/
theorem getLsbD_listedElement {ew : Nat} (hew : 0 < ew) (o : EvexOperands) (s : State) (b : Nat) :
    (listedElement ew o s (b / ew)).getLsbD (b % ew) =
      if o.aaa = 0#3 ∨ (readK s o.aaa).getLsbD (b / ew) = true then
        (readGpr s o.src).getLsbD (b % ew)
      else if o.z = false then (readZmm s o.dst).getLsbD b
      else false := by
  have hmod : b % ew < ew := Nat.mod_lt b hew
  have hdiv : b / ew * ew + b % ew = b := Nat.div_add_mod' b ew
  rw [listedElement]
  split_ifs <;> simp [hmod, hdiv]

/-- Settles O29: below VL the bit is read off its listed element. -/
theorem maskedWriteBitByBit : Obligations.MaskedWriteBitByBit := by
  intro i s t h b hb
  rw [getLsbD_readZmm_of_exec_next h hb, getLsbD_listedElement (elemWidth_bits_pos _)]
  by_cases hVL : i.len.bits ≤ b
  · simp [hVL, Nat.not_lt.mpr hVL]
  · simp [hVL, Nat.not_le.mp hVL]

/-- Settles O30: the frame and the `pc` clause are two parts of the row's result. -/
theorem onlyDestinationAndPcAreWritten : Obligations.OnlyDestinationAndPcAreWritten := by
  intro i s t h
  obtain ⟨-, -, hpc, hframe⟩ := exec_next_result h
  exact ⟨hframe, hpc⟩

/-- The next `pc`, as a number: six further, modulo the size of the mode's address space (R17). -/
theorem nextPc_toNat (m : Mode) (pc : Addr) :
    (nextPc m pc).toNat = (pc.toNat + 6) % 2 ^ m.pcBits := by
  cases m with
  | mode64 => simp [nextPc, Mode.pcBits]
  | mode32 =>
    simp only [nextPc, Mode.pcBits, BitVec.toNat_setWidth, BitVec.toNat_add, BitVec.reduceToNat]
    omega

/-- A step that completes leaves `pc` at the next instruction. -/
theorem step_next_pc (h : step s = .next t) : t.pc = nextPc s.cfg.mode s.pc := by
  obtain ⟨_, i, _, -, -, hexec⟩ := step_next h
  obtain ⟨-, -, hpc, -⟩ := exec_next_result hexec
  exact hpc

/-- Settles O31: inside the address space the sum does not wrap. -/
theorem pcAdvancesBySix : Obligations.PcAdvancesBySix := by
  intro s t h hlt
  rw [step_next_pc h, nextPc_toNat, Nat.mod_eq_of_lt hlt]

end Sys2Proof.Machine
end

section
/-! The two exceptions of a decoded instruction (60_exceptions.md R93, R94): decoding settles that the
instruction is encodable, so only the #UD conditions and CR0.TS are left to look at. -/

namespace Sys2Proof

/-- A decoded instruction has operands some bytes of its mode encode. -/
theorem wellFormed_of_decode_ok {m : Mode} {bs rest : List Byte} {i : Instr}
    (h : decode m bs = .ok (i, rest)) : WellFormed m i := by
  obtain ⟨_, _, _, _, _, _, -, hu, rfl⟩ := decode_ok_iff.mp h
  exact wellFormed_of_unsettled_none hu

namespace Machine

/-- CR0.TS = 1 without a #UD condition makes an encodable instruction raise #NM at its address. -/
theorem exec_nm {s : State} {i : Instr} (hw : WellFormed s.cfg.mode i) (hnud : ¬ UdCondition i s)
    (hts : s.cfg.ts = true) : exec i s = .fault (.nm s.pc) := by
  obtain ⟨hnw, -⟩ | ⟨-, hud, -⟩ | ⟨-, -, -, h⟩ | ⟨-, -, hts', -⟩ := exec_cases i s
  · exact absurd hw hnw
  · exact absurd hud hnud
  · exact h
  · exact absurd (hts'.symm.trans hts) Bool.false_ne_true

/-- Settles O25: a missing flag and state not enabled are the last two of the #UD conditions. -/
theorem unavailableInstructionRaisesUd : Obligations.UnavailableInstructionRaisesUd := by
  intro s bs rest i hfetch hdecode hunavailable
  rw [step_of_decode_ok hfetch hdecode]
  exact exec_ud (wellFormed_of_decode_ok hdecode) (.inr hunavailable)

/-- Settles O26: with no #UD condition, CR0.TS is the next check. -/
theorem taskSwitchedRaisesNm : Obligations.TaskSwitchedRaisesNm := by
  intro s bs rest i hfetch hdecode hts hnud
  rw [step_of_decode_ok hfetch hdecode]
  exact exec_nm (wellFormed_of_decode_ok hdecode) hnud hts

end Machine

end Sys2Proof
end

section
/-! The two directions between instructions and their bytes (30_encoding.md R40 to R49, R58). -/

namespace Sys2Proof

variable {m : Mode}

/-- The three checks of a well-formed instruction, apart. -/
theorem wellFormed_iff {i : Instr} :
    WellFormed m i ↔
      i.ops.zeroingHasMask = true ∧ i.ops.namesRegisters m = true ∧ i.width.encodable m = true := by
  simp [WellFormed, Instr.wellFormed, EvexOperands.wellFormed, and_assoc]

/-- The extension bits of registers the mode has are settled, and with the ModRM byte give the
register numbers back. -/
theorem registers_encode {o : EvexOperands} (h : o.namesRegisters m = true) :
    p0Reason m (encodeP0 o.dst o.src) = none ∧
      dstOf m (encodeP0 o.dst o.src) (encodeModRM o.dst o.src) = o.dst ∧
      srcOf m (encodeP0 o.dst o.src) (encodeModRM o.dst o.src) = o.src := by
  cases m with
  | mode64 => exact ⟨p0Reason_encode64 _ _, dstOf_encode64 _ _, srcOf_encode64 _ _⟩
  | mode32 =>
    obtain ⟨hdst, hsrc⟩ := EvexOperands.namesRegisters_iff.mp h
    exact ⟨p0Reason_encode32 _ _ hdst hsrc, dstOf_encode32 _ _ hdst, srcOf_encode32 _ _ hsrc⟩

/-- Settles O13: each byte of the encoding is settled, and its fields are read back. -/
theorem decodeEncodeRoundTrip : Obligations.DecodeEncodeRoundTrip := by
  intro m i rest hwf
  obtain ⟨hzero, hregs, hwidth⟩ := wellFormed_iff.mp hwf
  obtain ⟨hp0, hdst, hsrc⟩ := registers_encode hregs
  obtain ⟨hp1, hvvvv, -⟩ := p1_encode i.width i.ops.vvvv
  obtain ⟨hp2, hlen, haaa, hz⟩ := p2_encode m i.len i.ops.z i.ops.aaa hzero
  refine decode_six_ok_iff.mpr ⟨?_, rfl, ?_⟩
  · exact (unsettled_none_iff ..).mpr ⟨rfl, hp0, hp1, hp2, opcodeReason_encode ..⟩
  · have hops : operandsOf m (encodeP0 i.ops.dst i.ops.src) (encodeP1 i.width i.ops.vvvv)
        (encodeP2 i.len i.ops.z i.ops.aaa) (encodeModRM i.ops.dst i.ops.src) = i.ops := by
      simp only [operandsOf, hvvvv, hdst, hsrc, haaa, hz]
    rw [elemWidthOf_encode m i.width i.ops.vvvv hwidth, hlen, hops, mkInstr_eta]

variable {b0 b1 b2 b3 b4 b5 : Byte}

/-- A settled opcode byte is the opcode of the element width read from it. -/
theorem opcode_elemWidthOf (h : opcodeReason b2 b4 b5 = none) :
    (elemWidthOf m b2 b4).opcode = b4 := by
  obtain ⟨rfl | rfl | rfl, -, -⟩ := (opcodeReason_none_iff ..).mp h
  · rfl
  · rfl
  · cases m <;> simp only [elemWidthOf_7C_mode64, elemWidthOf_7C_mode32]
    · split_ifs <;> rfl
    · rfl

theorem encodeP0_decoded (h : p0Reason m b1 = none) :
    encodeP0 (dstOf m b1 b5) (srcOf m b1 b5) = b1 := by
  cases m with
  | mode64 => exact encodeP0_decoded64 b1 b5 h
  | mode32 => exact encodeP0_decoded32 b1 b5 h

/-- Settled bytes are the encoding of the instruction read off them, where bit W is the one of the
instruction's row. -/
theorem encode_of_settled (hu : unsettled m b0 b1 b2 b3 b4 b5 = none)
    (hW : (elemWidthOf m b2 b4).evexW = b2.extractLsb' 7 1) :
    encode (mkInstr (elemWidthOf m b2 b4) (vecLenOf b3) (operandsOf m b1 b2 b3 b5)) =
      [b0, b1, b2, b3, b4, b5] := by
  obtain ⟨h0, h1, h2, h3, h45⟩ := (unsettled_none_iff ..).mp hu
  obtain ⟨-, hmod, -⟩ := (opcodeReason_none_iff ..).mp h45
  simp only [encode, mkInstr_ops, mkInstr_width, mkInstr_len, operandsOf]
  rw [h0, encodeP0_decoded h1, encodeP1_decoded _ b2 h2 hW, (encodeP2_decoded m b3 h3).1,
    opcode_elemWidthOf h45, encodeModRM_decoded m b1 b5 hmod]

theorem extractW_of_getLsbD : ∀ b2 : Byte, b2.extractLsb' 7 1 = BitVec.ofBool (b2.getLsbD 7) := by
  decide +kernel

/-- In Mode64 bit W is the one of the row that is read (R51). -/
theorem evexW_elemWidthOf_mode64 (hu : unsettled .mode64 b0 b1 b2 b3 b4 b5 = none) :
    (elemWidthOf .mode64 b2 b4).evexW = b2.extractLsb' 7 1 := by
  obtain ⟨-, -, -, -, h45⟩ := (unsettled_none_iff ..).mp hu
  obtain ⟨rfl | rfl | rfl, -, -⟩ := (opcodeReason_none_iff ..).mp h45
  · rw [extractW_of_getLsbD, w_eq_false_of_unsettled_none hu (.inl rfl)]; rfl
  · rw [extractW_of_getLsbD, w_eq_false_of_unsettled_none hu (.inr rfl)]; rfl
  · rw [extractW_of_getLsbD, elemWidthOf_7C_mode64]
    cases b2.getLsbD 7 <;> rfl

/-- In Mode32 every row that is read has W = 0. -/
theorem evexW_elemWidthOf_mode32 : (elemWidthOf .mode32 b2 b4).evexW = 0#1 := by
  simp only [elemWidthOf]
  split_ifs <;> rfl

/-- Settles O14: in Mode64 the bit W that is read is the one the encoder writes. -/
theorem decodeIsCanonicalInMode64 : Obligations.DecodeIsCanonicalInMode64 := by
  intro bs i rest h
  obtain ⟨b0, b1, b2, b3, b4, b5, rfl, hu, rfl⟩ := decode_ok_iff.mp h
  rw [encode_of_settled hu (evexW_elemWidthOf_mode64 hu)]
  rfl

/-- A settled P1 byte with W = 1 is the P1 byte of its vvvv on a VPBROADCASTD row, with W set. -/
theorem encodeP1_dword_setW : ∀ b2 : Byte, p1Reason b2 = none → b2.getLsbD 7 = true →
    encodeP1 .dword (b2.extractLsb' 3 4) ||| 0x80#8 = b2 := by
  decide +kernel

theorem clearW_extractW : ∀ b2 : Byte, (b2 &&& 0x7F#8).extractLsb' 7 1 = 0#1 := by
  decide +kernel

/-- Settles O15: with W = 0 as in Mode64; with W = 1 the opcode is 7Ch, and the encoding is the one
of the same bytes with W cleared. -/
theorem decodeInMode32FreesOnlyW : Obligations.DecodeInMode32FreesOnlyW := by
  intro bs i rest h
  obtain ⟨b0, b1, b2, b3, b4, b5, rfl, hu, rfl⟩ := decode_ok_iff.mp h
  cases hW : b2.getLsbD 7 with
  | false =>
    left
    rw [encode_of_settled hu (by rw [evexW_elemWidthOf_mode32, extractW_of_getLsbD, hW]; rfl)]
    rfl
  | true =>
    right
    obtain ⟨-, -, h2, -, h45⟩ := (unsettled_none_iff ..).mp hu
    obtain ⟨-, -, hW7C⟩ := (opcodeReason_none_iff ..).mp h45
    obtain rfl : b4 = 0x7C#8 := by_contra fun h4 => Bool.false_ne_true ((hW7C h4).symm.trans hW)
    have henc := encode_of_settled (unsettled_clearW.trans hu)
      (by rw [evexW_elemWidthOf_mode32, clearW_extractW])
    rw [operandsOf_clearW] at henc
    simp only [elemWidthOf_7C_mode32] at henc ⊢
    refine ⟨mkInstr_width .., ?_⟩
    rw [henc, mkInstr_ops, operandsOf, encodeP1_dword_setW b2 h2 hW]
    rfl

/-- Settles O16: what settled bytes decode to is well formed, and they are six. -/
theorem decodedIsWellFormedAndSixBytes : Obligations.DecodedIsWellFormedAndSixBytes := by
  intro m bs i rest h
  refine ⟨wellFormed_of_decode_ok h, ?_⟩
  obtain ⟨b0, b1, b2, b3, b4, b5, rfl, -, -⟩ := decode_ok_iff.mp h
  rfl

/-- A register number of three parts, extension bits stored inverted (R46). -/
theorem dst_parts_toNat : ∀ (x y : BitVec 1) (r : BitVec 3),
    (~~~x ++ ~~~y ++ r : BitVec 5).toNat = 16 * (1 - x.toNat) + 8 * (1 - y.toNat) + r.toNat := by
  decide +kernel

/-- A register number of two parts, the extension bit stored inverted (R47). -/
theorem src_parts_toNat : ∀ (x : BitVec 1) (r : BitVec 3),
    (~~~x ++ r : BitVec 4).toNat = 8 * (1 - x.toNat) + r.toNat := by
  decide +kernel

/-- In Mode32 the extension bits count nothing. -/
theorem zero_append_toNat (n : Nat) {k : Nat} (r : BitVec k) : (0#n ++ r).toNat = r.toNat := by
  simp [BitVec.toNat_append]

/-- Settles O18: the operands are read by `operandsOf`; the register numbers are sums of parts. -/
theorem operandFieldsAreAssembled : Obligations.OperandFieldsAreAssembled := by
  intro m b0 b1 b2 b3 b4 b5 i rest rest' h
  obtain ⟨-, -, rfl⟩ := decode_six_ok_iff.mp h
  rw [mkInstr_ops]
  refine ⟨?_, ?_, ?_, ?_, rfl, rfl, rfl⟩ <;> rintro rfl
  · exact dst_parts_toNat ..
  · exact zero_append_toNat 2 _
  · exact src_parts_toNat ..
  · exact zero_append_toNat 1 _

/-- Settles O41: each word is computed. -/
theorem tableWordsDecodeToTheirRows : Obligations.TableWordsDecodeToTheirRows := by
  exact ⟨rfl, rfl, rfl, rfl, rfl, rfl, rfl, rfl, rfl, rfl, rfl, rfl⟩

end Sys2Proof
end

section
/-! The decoder and the opcode table (30_encoding.md R44, R54 d): byte by byte, the bits a row fixes are
the ones that select it. -/

namespace Sys2Proof

variable {m : Mode} {r : TableRow} {b0 b1 b2 b3 b4 b5 : Byte}

theorem row_lengths : ∀ r ∈ tableRows m, r.mask.length = 6 ∧ r.pattern.length = 6 := by
  cases m <;> decide

/-- Six bytes match a row of the table where they do at each byte. -/
theorem TableRow.matchesBytes_of_getD (hr : r ∈ tableRows m) {bs : List Byte} (hlen : bs.length = 6)
    (h : ∀ k, k < 6 → bs.getD k 0#8 &&& r.mask.getD k 0#8 = r.pattern.getD k 0#8) :
    r.matchesBytes bs = true := by
  obtain ⟨hmask, hpattern⟩ := row_lengths r hr
  simp only [TableRow.matchesBytes, beq_iff_eq]
  refine List.ext_getElem (by simp [hlen, hmask, hpattern]) fun k _ hk => ?_
  have hk6 : k < 6 := hpattern ▸ hk
  simpa [List.getD_eq_getElem?_getD, hk6, hlen, hmask, hpattern] using h k hk6

/-- Each element width the mode has is a row of the mode's table, at each vector length. -/
theorem exists_row {w : ElemWidth} (hw : w.encodable m = true) (l : VecLen) :
    ∃ r ∈ tableRows m, r.width = w ∧ r.len = l := by
  cases w with
  | byte | word | dword => cases m <;> cases l <;> decide
  | qword =>
    cases m with
    | mode64 => cases l <;> decide
    | mode32 => cases hw

/-! What a row says of each byte, given the row's opcode; the byte facts of `unsettled_none_of_row` are
their other direction. -/

theorem byte1_matches_row : ∀ r ∈ tableRows m, ∀ b : Byte, p0Reason m b = none →
    b &&& r.mask.getD 1 0#8 = r.pattern.getD 1 0#8 := by
  cases m <;> decide +kernel

/-- W selects the row in Mode64, and is free on the VPBROADCASTD rows in Mode32 (R51, R52). -/
theorem byte2_matches_row_iff : ∀ r ∈ tableRows m, ∀ b : Byte,
    b &&& r.mask.getD 2 0#8 = r.pattern.getD 2 0#8 ↔
      p1Reason b = none ∧ (r.width.opcode ≠ 0x7C#8 → b.getLsbD 7 = false) ∧
        elemWidthOf m b r.width.opcode = r.width := by
  cases m <;> decide +kernel

/-- L'L selects the row (R50). -/
theorem vecLenOf_of_row : ∀ r ∈ tableRows m, ∀ b : Byte,
    b &&& r.mask.getD 3 0#8 = r.pattern.getD 3 0#8 → vecLenOf b = r.len := by
  cases m <;> decide +kernel

theorem byte3_matches_row : ∀ r ∈ tableRows m, ∀ b : Byte, p2Reason m b = none →
    vecLenOf b = r.len → b &&& r.mask.getD 3 0#8 = r.pattern.getD 3 0#8 := by
  cases m <;> decide +kernel

theorem byte0_matches_row : ∀ r ∈ tableRows m,
    0x62#8 &&& r.mask.getD 0 0#8 = r.pattern.getD 0 0#8 := by
  cases m <;> decide

theorem byte4_matches_row : ∀ r ∈ tableRows m,
    r.width.opcode &&& r.mask.getD 4 0#8 = r.pattern.getD 4 0#8 := by
  cases m <;> decide

theorem byte5_matches_row : ∀ r ∈ tableRows m, ∀ b : Byte, b.extractLsb' 6 2 = 0b11#2 →
    b &&& r.mask.getD 5 0#8 = r.pattern.getD 5 0#8 := by
  cases m <;> decide +kernel

/-- Bytes that match a row are read as an instruction of its width and length. -/
theorem selects_of_row (hr : r ∈ tableRows m)
    (hmatch : r.matchesBytes [b0, b1, b2, b3, b4, b5] = true) :
    elemWidthOf m b2 b4 = r.width ∧ vecLenOf b3 = r.len := by
  have hbits := TableRow.matchesBytes_getD hmatch
  obtain ⟨-, -, hwidth⟩ := (byte2_matches_row_iff r hr b2).mp (hbits 2)
  obtain rfl := byte4_of_row r hr b4 (hbits 4)
  exact ⟨hwidth, vecLenOf_of_row r hr b3 (hbits 3)⟩

/-- Settled bytes match the row whose width and length are read from them. -/
theorem matches_row_of_settled (hr : r ∈ tableRows m)
    (hu : unsettled m b0 b1 b2 b3 b4 b5 = none) (hwidth : elemWidthOf m b2 b4 = r.width)
    (hlen : vecLenOf b3 = r.len) : r.matchesBytes [b0, b1, b2, b3, b4, b5] = true := by
  obtain ⟨rfl, h1, h2, h3, h45⟩ := (unsettled_none_iff ..).mp hu
  obtain ⟨-, hmod, hW⟩ := (opcodeReason_none_iff ..).mp h45
  obtain rfl : r.width.opcode = b4 := hwidth ▸ opcode_elemWidthOf h45
  refine TableRow.matchesBytes_of_getD hr rfl fun k hk => ?_
  match k, hk with
  | 0, _ => exact byte0_matches_row r hr
  | 1, _ => exact byte1_matches_row r hr b1 h1
  | 2, _ => exact (byte2_matches_row_iff r hr b2).mpr ⟨h2, hW, hwidth⟩
  | 3, _ => exact byte3_matches_row r hr b3 h3 hlen
  | 4, _ => exact byte4_matches_row r hr
  | 5, _ => exact byte5_matches_row r hr b5 hmod

/-- Settled bytes are no zeroing without a writemask (R54 d). -/
theorem zeroing_has_mask_of_settled (hu : unsettled m b0 b1 b2 b3 b4 b5 = none) :
    ¬ (b3.getLsbD 7 = true ∧ b3.extractLsb' 0 3 = 0b000#3) := by
  obtain ⟨-, -, -, h3, -⟩ := (unsettled_none_iff ..).mp hu
  obtain ⟨-, -, -, hz⟩ := p2Reason_none_iff.mp h3
  exact hz

/-- Settles O17: what settled bytes select is a row of the mode, and they match it; bytes that match a
row are settled and select it. -/
theorem decodeAgreesWithOpcodeTable : Obligations.DecodeAgreesWithOpcodeTable := by
  intro m b0 b1 b2 b3 b4 b5 ew l
  constructor
  · rintro ⟨i, hdec, rfl, rfl⟩
    obtain ⟨-, -, hencodable⟩ := wellFormed_iff.mp (wellFormed_of_decode_ok hdec)
    obtain ⟨hu, -, rfl⟩ := decode_six_ok_iff.mp hdec
    rw [mkInstr_width] at hencodable
    rw [mkInstr_width, mkInstr_len]
    obtain ⟨r, hr, hwidth, hlen⟩ := exists_row hencodable (vecLenOf b3)
    exact ⟨⟨r, hr, hwidth, hlen, matches_row_of_settled hr hu hwidth.symm hlen.symm⟩,
      zeroing_has_mask_of_settled hu⟩
  · rintro ⟨⟨r, hr, rfl, rfl, hmatch⟩, hz⟩
    obtain ⟨hwidth, hlen⟩ := selects_of_row hr hmatch
    exact ⟨_, decode_six_ok_iff.mpr ⟨unsettled_none_of_row hr hmatch hz, rfl, rfl⟩,
      (mkInstr_width ..).trans hwidth, (mkInstr_len ..).trans hlen⟩

/-- Bytes settled in Mode64 are settled in Mode32 where the stored R, X, B and R' are all 1 (R54 k, l). -/
theorem unsettled_mode32_of_mode64 (hu : unsettled .mode64 b0 b1 b2 b3 b4 b5 = none)
    (hext : b1.extractLsb' 4 4 = 0b1111#4) : unsettled .mode32 b0 b1 b2 b3 b4 b5 = none := by
  have hp0 : ∀ b : Byte, p0Reason .mode64 b = none → b.extractLsb' 4 4 = 0b1111#4 →
      p0Reason .mode32 b = none := by
    decide +kernel
  obtain ⟨h0, h1, h2, h3, h45⟩ := (unsettled_none_iff ..).mp hu
  exact (unsettled_none_iff ..).mpr
    ⟨h0, hp0 b1 h1 hext, h2, p2Reason_none_iff.mpr (p2Reason_none_iff.mp h3), h45⟩

namespace Machine

/-- Settles O22: the bytes are settled in Mode32 too, where opcode 7Ch is VPBROADCASTD. -/
theorem quadwordBytesRunAsDwordInMode32 : Obligations.QuadwordBytesRunAsDwordInMode32 := by
  rintro s b0 b1 b2 b3 b4 b5 l hmode hcode hext ⟨r, hr, hwidth, rfl, hmatch⟩ hz
  have hr64 : r ∈ tableRows .mode64 := hr
  have hu := unsettled_mode32_of_mode64 (unsettled_none_of_row hr64 hmatch hz) hext
  obtain ⟨-, hlen⟩ := selects_of_row hr64 hmatch
  have h4 : b4 = 0x7C#8 := by
    rw [byte4_of_row r hr64 b4 (TableRow.matchesBytes_getD hmatch 4), hwidth]
    rfl
  rw [step_of_settled hcode (hmode ▸ hu), hmode, h4, hlen]
  rfl

end Machine

end Sys2Proof
end

section
/-! The outcomes of `exec` (60_exceptions.md R98), and the result of each row where it completes
(40_vpbroadcast_gpr.md R70 to R81). -/

namespace Sys2Proof.Machine

/-- Settles O27: each of the four answers comes with its condition, and they exclude each other. -/
theorem checksComeInOrder : Obligations.ChecksComeInOrder := by
  intro i s
  obtain ⟨hnw, h⟩ | ⟨hw, hud, h⟩ | ⟨hw, hnud, hts, h⟩ | ⟨hw, hnud, hts, h⟩ := exec_cases i s
  · simp [h, hnw]
  · simpa [h, hud] using hw
  · simpa [h, hnud, hts] using hw
  · simpa [h, hnud, hts] using hw

variable {i : Instr} {s : State}

/-- An encodable instruction with no exception condition answers its register effect. -/
theorem exec_completes (hw : WellFormed s.cfg.mode i) (hnud : ¬ UdCondition i s)
    (hts : s.cfg.ts = false) : exec i s = .next (broadcastEffect i.width i.len i.ops s) := by
  obtain ⟨-, -, -, hnext⟩ := checksComeInOrder i s
  obtain ⟨t, h⟩ := hnext.mpr ⟨hw, hnud, hts⟩
  obtain ⟨-, -, -, rfl⟩ := exec_next h
  exact h

variable {ew : ElemWidth} {l : VecLen} {o : EvexOperands}

/-- An encodable instruction with every flag of its row, AVX-512 state enabled, vvvv = 1111b and
CR0.TS = 0 completes with the result the rules give for its row. -/
theorem exec_completes_result (hfeatures : ∀ f ∈ rowFeatures ew l, hasFeature s.cfg f = true)
    (hw : WellFormed s.cfg.mode (mkInstr ew l o)) (hvvvv : o.vvvv = 0b1111#4)
    (henabled : Avx512StateEnabled s.cfg) (hts : s.cfg.ts = false) :
    ∃ t, exec (mkInstr ew l o) s = .next t ∧
      BroadcastResult ew.bits (elementCount ew l) l.bits o s t := by
  have hnud : ¬ UdCondition (mkInstr ew l o) s := by
    simp only [UdCondition, mkInstr_ops, mkInstr_width, mkInstr_len]
    rintro (hv | ⟨f, hf, hoff⟩ | hdisabled)
    · exact hv hvvvv
    · exact Bool.false_ne_true (hoff.symm.trans (hfeatures f hf))
    · exact hdisabled henabled
  obtain ⟨t, h⟩ : ∃ t, exec (mkInstr ew l o) s = .next t := ⟨_, exec_completes hw hnud hts⟩
  exact ⟨t, h, by simpa only [mkInstr_ops, mkInstr_width, mkInstr_len] using exec_next_result h⟩

section
variable {c : Config}

/-- The cells of the byte and word rows: BW, and VL below 512 bits (R2). -/
theorem features_of_bw (hew : ew = .byte ∨ ew = .word) (hbw : c.avx512bw = true)
    (hvl : l = .zmm ∨ c.avx512vl = true) : ∀ f ∈ rowFeatures ew l, hasFeature c f = true := by
  rcases hew with rfl | rfl <;> cases l <;> simp_all [rowFeatures, hasFeature]

/-- The cells of the doubleword and quadword rows: F, and VL below 512 bits (R2). -/
theorem features_of_f (hew : ew = .dword ∨ ew = .qword) (hf : c.avx512f = true)
    (hvl : l = .zmm ∨ c.avx512vl = true) : ∀ f ∈ rowFeatures ew l, hasFeature c f = true := by
  rcases hew with rfl | rfl <;> cases l <;> simp_all [rowFeatures, hasFeature]

end

/-- Settles O1: the row of R70, whose cell is BW and VL. -/
theorem vpbroadcastbXmmCompletes : Obligations.VpbroadcastbXmmCompletes :=
  fun _ _ hw hv hvl hbw =>
    exec_completes_result (ew := .byte) (l := .xmm) (features_of_bw (.inl rfl) hbw (.inr hvl)) hw hv

/-- Settles O2: the row of R71, whose cell is BW and VL. -/
theorem vpbroadcastbYmmCompletes : Obligations.VpbroadcastbYmmCompletes :=
  fun _ _ hw hv hvl hbw =>
    exec_completes_result (ew := .byte) (l := .ymm) (features_of_bw (.inl rfl) hbw (.inr hvl)) hw hv

/-- Settles O3: the row of R72, whose cell is BW. -/
theorem vpbroadcastbZmmCompletes : Obligations.VpbroadcastbZmmCompletes :=
  fun _ _ hw hv hbw =>
    exec_completes_result (ew := .byte) (l := .zmm) (features_of_bw (.inl rfl) hbw (.inl rfl)) hw hv

/-- Settles O4: the row of R73, whose cell is BW and VL. -/
theorem vpbroadcastwXmmCompletes : Obligations.VpbroadcastwXmmCompletes :=
  fun _ _ hw hv hvl hbw =>
    exec_completes_result (ew := .word) (l := .xmm) (features_of_bw (.inr rfl) hbw (.inr hvl)) hw hv

/-- Settles O5: the row of R74, whose cell is BW and VL. -/
theorem vpbroadcastwYmmCompletes : Obligations.VpbroadcastwYmmCompletes :=
  fun _ _ hw hv hvl hbw =>
    exec_completes_result (ew := .word) (l := .ymm) (features_of_bw (.inr rfl) hbw (.inr hvl)) hw hv

/-- Settles O6: the row of R75, whose cell is BW. -/
theorem vpbroadcastwZmmCompletes : Obligations.VpbroadcastwZmmCompletes :=
  fun _ _ hw hv hbw =>
    exec_completes_result (ew := .word) (l := .zmm) (features_of_bw (.inr rfl) hbw (.inl rfl)) hw hv

/-- Settles O7: the row of R76, whose cell is F and VL. -/
theorem vpbroadcastdXmmCompletes : Obligations.VpbroadcastdXmmCompletes :=
  fun _ _ hw hv hvl hf =>
    exec_completes_result (ew := .dword) (l := .xmm) (features_of_f (.inl rfl) hf (.inr hvl)) hw hv

/-- Settles O8: the row of R77, whose cell is F and VL. -/
theorem vpbroadcastdYmmCompletes : Obligations.VpbroadcastdYmmCompletes :=
  fun _ _ hw hv hvl hf =>
    exec_completes_result (ew := .dword) (l := .ymm) (features_of_f (.inl rfl) hf (.inr hvl)) hw hv

/-- Settles O9: the row of R78, whose cell is F. -/
theorem vpbroadcastdZmmCompletes : Obligations.VpbroadcastdZmmCompletes :=
  fun _ _ hw hv hf =>
    exec_completes_result (ew := .dword) (l := .zmm) (features_of_f (.inl rfl) hf (.inl rfl)) hw hv

/-- Settles O10: the row of R79, whose cell is F and VL. -/
theorem vpbroadcastqXmmCompletes : Obligations.VpbroadcastqXmmCompletes :=
  fun _ _ hw hv hvl hf =>
    exec_completes_result (ew := .qword) (l := .xmm) (features_of_f (.inr rfl) hf (.inr hvl)) hw hv

/-- Settles O11: the row of R80, whose cell is F and VL. -/
theorem vpbroadcastqYmmCompletes : Obligations.VpbroadcastqYmmCompletes :=
  fun _ _ hw hv hvl hf =>
    exec_completes_result (ew := .qword) (l := .ymm) (features_of_f (.inr rfl) hf (.inr hvl)) hw hv

/-- Settles O12: the row of R81, whose cell is F. -/
theorem vpbroadcastqZmmCompletes : Obligations.VpbroadcastqZmmCompletes :=
  fun _ _ hw hv hf =>
    exec_completes_result (ew := .qword) (l := .zmm) (features_of_f (.inr rfl) hf (.inl rfl)) hw hv

end Sys2Proof.Machine
end

section
/-! What the result of a completing instruction depends on (40_vpbroadcast_gpr.md R66, 10_state.md R12,
R14, R16): of the parameters whether it completes, and the destination only of its listed elements. -/

namespace Sys2Proof.Machine

variable {i : Instr} {s s' t : State} {ew : ElemWidth} {l : VecLen} {o : EvexOperands}

/-- Whether an instruction completes depends on the parameters alone. -/
theorem exec_completes_of_cfg_eq (h : exec i s = .next t) (hcfg : s'.cfg = s.cfg) :
    exec i s' = .next (broadcastEffect i.width i.len i.ops s') := by
  obtain ⟨hw, hnud, hts, -⟩ := exec_next h
  exact exec_completes (hcfg ▸ hw) (by simpa only [UdCondition, hcfg] using hnud) (hcfg ▸ hts)

/-- The loop depends on the elements it writes alone. -/
theorem broadcastLoop_congr {n : Nat} {e e' : BitVec n} {mask mask' : Option KWord} {z z' : Bool}
    {old old' : ZmmWord} {kl : Nat}
    (h : ∀ j, j < kl → newElement e mask z old j = newElement e' mask' z' old' j) :
    broadcastLoop e mask z old kl = broadcastLoop e' mask' z' old' kl := by
  induction kl with
  | zero => rfl
  | succ kl ih =>
    rw [broadcastLoop, broadcastLoop, h kl (Nat.lt_succ_self kl),
      ih fun j hj => h j (Nat.lt_succ_of_lt hj)]

@[simp] theorem readGpr_writeZmm (n : BitVec 5) (v : ZmmWord) (r : BitVec 4) :
    readGpr (writeZmm n v s) r = readGpr s r := rfl

@[simp] theorem readK_writeZmm (n : BitVec 5) (v : ZmmWord) (r : BitVec 3) :
    readK (writeZmm n v s) r = readK s r := rfl

/-- The later of two writes to one register stands. -/
@[simp] theorem writeZmm_writeZmm (n : BitVec 5) (u v : ZmmWord) :
    writeZmm n v (writeZmm n u s) = writeZmm n v s := by
  simp [writeZmm]

/-- The register effect is known from the destination after. -/
theorem broadcastEffect_eq_of_readZmm {v : ZmmWord}
    (h : readZmm (broadcastEffect ew l o s) o.dst = v) :
    broadcastEffect ew l o s = advancePc (writeZmm o.dst v s) := by
  rw [broadcastEffect, readZmm_advancePc, readZmm_writeZmm_same] at h
  rw [broadcastEffect, h]

/-- The destination after depends on the listed elements alone. -/
theorem readZmm_broadcastEffect_congr
    (h : ∀ j, j < elementCount ew l →
      listedElement ew.bits o s' j = listedElement ew.bits o s j) :
    readZmm (broadcastEffect ew l o s') o.dst = readZmm (broadcastEffect ew l o s) o.dst := by
  simp only [broadcastEffect, readZmm_advancePc, readZmm_writeZmm_same]
  refine broadcastLoop_congr fun j hj => ?_
  rw [newElement_eq_listedElement, newElement_eq_listedElement, h j hj]

/-- Settles O39: the listed elements read the named bits and no others. -/
theorem unreadBitsDoNotInfluenceTheResult : Obligations.UnreadBitsDoNotInfluenceTheResult := by
  intro i s s' t hcfg hsrc hmask hold h
  refine ⟨_, exec_completes_of_cfg_eq h hcfg, ?_, rfl, rfl⟩
  obtain ⟨-, -, -, rfl⟩ := exec_next h
  refine readZmm_broadcastEffect_congr fun j hj => ?_
  by_cases haaa : i.ops.aaa = 0#3
  · simp only [listedElement, haaa, true_or, if_true, hsrc]
  · rw [listedElement, listedElement, hmask haaa j hj, hsrc]
    split_ifs with henabled hz
    · rfl
    · exact hold haaa hz j hj (by simpa [haaa] using henabled)
    · rfl

/-- Settles O38: the second time, the old elements that are kept are the listed ones already. -/
theorem executingTwiceIsExecutingOnce : Obligations.ExecutingTwiceIsExecutingOnce := by
  intro i s t h
  obtain ⟨helements, -, -, hgpr, hk, -, -, hcfg, -⟩ := exec_next_result h
  refine ⟨_, exec_completes_of_cfg_eq h hcfg, ?_⟩
  obtain ⟨-, -, -, ht⟩ := exec_next h
  conv_rhs => rw [ht]
  refine readZmm_broadcastEffect_congr fun j hj => ?_
  have hkept := helements j hj
  rw [listedElement, readGpr_congr hgpr, readK_congr hk, hkept, listedElement]
  split_ifs <;> rfl

/-- Without a writemask, and under zeroing, no listed element reads the old destination. -/
theorem listedElement_writeZmm (h : o.aaa = 0#3 ∨ o.z = true) (v : ZmmWord) (j : Nat) :
    listedElement ew.bits o (writeZmm o.dst v s) j = listedElement ew.bits o s j := by
  rcases h with haaa | hz
  · simp [listedElement, haaa]
  · simp [listedElement, hz]

/-- Settles O37: the listed elements are the same, and the destination is overwritten. -/
theorem oldDestinationMattersOnlyUnderMerging : Obligations.OldDestinationMattersOnlyUnderMerging := by
  intro i s t v hkind h
  have hdst : readZmm (broadcastEffect i.width i.len i.ops (writeZmm i.ops.dst v s)) i.ops.dst =
      readZmm (broadcastEffect i.width i.len i.ops s) i.ops.dst :=
    readZmm_broadcastEffect_congr fun j _ => listedElement_writeZmm hkind v j
  have heffect : broadcastEffect i.width i.len i.ops (writeZmm i.ops.dst v s) =
      broadcastEffect i.width i.len i.ops s := by
    rw [broadcastEffect_eq_of_readZmm hdst, writeZmm_writeZmm, ← broadcastEffect_eq_of_readZmm rfl]
  have hexec := exec_completes_of_cfg_eq (s' := writeZmm i.ops.dst v s) h rfl
  rw [hexec, heffect]
  obtain ⟨-, -, -, rfl⟩ := exec_next h
  rfl

/-- Settles O36: with no element enabled, each listed element is the old one or 0. -/
theorem allZeroMaskKeepsOrClears : Obligations.AllZeroMaskKeepsOrClears := by
  intro i s t h haaa hmask
  have hoff (b : Nat) (hb : b < i.len.bits) :
      (readK s i.ops.aaa).getLsbD (b / i.width.bits) = false :=
    hmask _ ((Nat.div_lt_iff_lt_mul (elemWidth_bits_pos _)).mpr
      ((elementCount_mul_bits i.width i.len).symm ▸ hb))
  have hbits := maskedWriteBitByBit i s t h
  refine ⟨fun hz => ?merging, fun hz => ?zeroing⟩ <;> refine BitVec.eq_of_getLsbD_eq fun b hb => ?_
  case merging =>
    rw [hbits b hb]
    by_cases hVL : i.len.bits ≤ b
    · simp [hVL]
    · have hlt := Nat.not_le.mp hVL
      simp [hVL, hlt, haaa, hoff b hlt, hz, hb]
  case zeroing =>
    rw [hbits b hb]
    by_cases hVL : i.len.bits ≤ b
    · simp [hVL]
    · simp [hVL, haaa, hoff b (Nat.not_le.mp hVL), hz]

end Sys2Proof.Machine
end

section
/-! One step and runs of steps (40_vpbroadcast_gpr.md R60, 70_reset_and_hazards.md R110 to R112): the
launch state, the invariant, the program counter along a run, and a program placed from outside. -/

namespace Sys2Proof.Machine

variable {s t : State}

/-- Settles O45: the fetch and the decode answer, and what is left of the step is `exec`. -/
theorem stepRunsTheDecodedInstruction : Obligations.StepRunsTheDecodedInstruction :=
  fun _ _ _ _ => step_of_decode_ok

/-- Settles O44: memory is not written, and the next `pc` is a remainder by the size of the space. -/
theorem everyStepKeepsTheInvariant : Obligations.EveryStepKeepsTheInvariant := by
  rintro s t ⟨hmem, -⟩ h
  obtain ⟨hmem', hcfg⟩ := step_next_mem_cfg h
  refine ⟨hmem' ▸ hmem, ?_⟩
  rw [step_next_pc h, hcfg, nextPc_toNat]
  exact Nat.mod_lt _ (Nat.two_pow_pos _)

/-- Settles O43: no byte is defined and `pc` is 0. -/
theorem resetMeetsTheInvariant : Obligations.ResetMeetsTheInvariant :=
  ⟨reset_mem_wf, by decide⟩

/-- Settles O42: the registers are read off the replicated values, the rest off the fields. -/
theorem resetIsTheNamedLaunchState : Obligations.ResetIsTheNamedLaunchState := by
  refine ⟨⟨fun f => ?_, ⟨rfl, rfl, rfl⟩, rfl⟩, rfl, rfl, fun n => ?_, fun n => ?_, fun n => ?_, rfl,
    rfl, rfl, fun _ => rfl⟩
  · cases f <;> rfl
  · simp [readGpr, State.reset]
  · simp [readZmm, State.reset]
  · simp [readK, State.reset]

/-- Settles O32: the sum is the size of the space, whose remainder is 0. -/
theorem pcAtTheTopBecomesZero : Obligations.PcAtTheTopBecomesZero := by
  intro s t h htop
  apply BitVec.eq_of_toNat_eq
  rw [step_next_pc h, nextPc_toNat, htop, Nat.mod_self]
  rfl

/-- Settles O40: the fetch and the decoder refuse and never fault, and of the answers of `exec` two
are faults. -/
theorem faultsAreUdOrNmAtPc : Obligations.FaultsAreUdOrNmAtPc := by
  intro s f h
  cases hfetch : fetch s with
  | error r => rw [step_of_fetch_error hfetch] at h; cases h
  | ok bs =>
    cases hdecode : decode s.cfg.mode bs with
    | error u => rw [step_of_decode_error hfetch hdecode] at h; cases h
    | ok ir =>
      obtain ⟨i, rest⟩ := ir
      refine ⟨?_, bs, i, rest, rfl, hdecode⟩
      rw [step_of_decode_ok hfetch hdecode] at h
      obtain ⟨-, hexec⟩ | ⟨-, -, hexec⟩ | ⟨-, -, -, hexec⟩ | ⟨-, -, -, hexec⟩ := exec_cases i s <;>
        rw [hexec] at h <;> cases h
      · exact .inl rfl
      · exact .inr rfl

/-- A run of `n` steps with `cfg.END` at `pc + 6n` ends there, counting on from any `k`. -/
theorem runToEnd_of_stepsTo {n fuel k : Nat} (hrun : StepsTo n s t) (hfuel : n ≤ fuel)
    (hlt : s.pc.toNat + 6 * n < 2 ^ s.cfg.mode.pcBits)
    (hend : s.cfg.endPc.toNat = s.pc.toNat + 6 * n) :
    runToEnd fuel k s = .finished (k + n) t := by
  induction n generalizing s fuel k with
  | zero =>
    obtain rfl : s = t := hrun
    have hpc : s.pc = s.cfg.endPc := BitVec.eq_of_toNat_eq hend.symm
    cases fuel <;> simp [runToEnd, hpc]
  | succ n ih =>
    obtain ⟨u, hstep, hrest⟩ := hrun
    obtain ⟨fuel, rfl⟩ := Nat.exists_eq_succ_of_ne_zero (Nat.ne_of_gt (Nat.zero_lt_of_lt hfuel))
    have hpc : s.pc ≠ s.cfg.endPc := fun heq => by rw [heq] at hend; omega
    have hpc' : u.pc.toNat = s.pc.toNat + 6 := pcAdvancesBySix s u hstep (by omega)
    obtain ⟨-, hcfg⟩ := step_next_mem_cfg hstep
    have htail : runToEnd fuel (k + 1) u = .finished (k + 1 + n) t :=
      ih hrest (Nat.le_of_succ_le_succ hfuel) (by rw [hcfg]; omega) (by rw [hcfg]; omega)
    simp [runToEnd, hpc, hstep, htail, Nat.add_assoc, Nat.add_comm 1]

/-- Settles O35: a run that counts from 0. -/
theorem runEndsAfterNSteps : Obligations.RunEndsAfterNSteps := by
  intro n fuel s t hrun hfuel hlt hend
  simpa using runToEnd_of_stepsTo (k := 0) hrun hfuel hlt hend

theorem pcBits_le (m : Mode) : m.pcBits ≤ 64 := by cases m <;> decide

/-- The fetch answers the bytes of a word placed at `pc`. -/
theorem fetch_withFetchWord {nbits w : Nat} (hlt : s.pc.toNat + 5 < 2 ^ s.cfg.mode.pcBits) :
    fetch (s.withFetchWord nbits w) = .ok (tableBytes nbits w) := by
  have htop : 2 ^ s.cfg.mode.pcBits ≤ 2 ^ 64 := Nat.pow_le_pow_right (by decide) (pcBits_le _)
  have hlen := tableBytes_length nbits w
  have hread (k : Nat) (hk : k < 6) :
      (s.withFetchWord nbits w).mem.read (s.pc.toNat + k) = (tableBytes nbits w)[k]? := by
    rw [List.getElem?_eq_getElem (hlen ▸ hk)]
    exact Memory.read_place s.mem s.pc _ k (hlen ▸ hk) (by omega)
  match hbs : tableBytes nbits w, hlen with
  | [b0, b1, b2, b3, b4, b5], _ =>
    rw [hbs] at hread
    exact fetch_codeAt ⟨hlt, hread 0 (by decide), hread 1 (by decide), hread 2 (by decide),
      hread 3 (by decide), hread 4 (by decide), hread 5 (by decide)⟩

/-- Settles O46: the fetch finds the word, and placing it leaves the mode alone. -/
theorem placedInstructionRunsNext : Obligations.PlacedInstructionRunsNext := by
  intro s nbits w i rest hlt hdecode
  exact step_of_decode_ok (fetch_withFetchWord hlt) hdecode

end Sys2Proof.Machine
end
